-- ==== Sys2Proof/Word.lean ====
section
/-!
DEFINITION. The two word types of the block (10_state.md R30). Every value is unsigned (00_scope.md R9).
-/

namespace Sys2Proof

/-- A byte, an unsigned number 0 to 255 (R30). -/
abbrev Byte := BitVec 8

/-- A 16-bit word, an unsigned number 0 to 65535 (R30). -/
abbrev Word16 := BitVec 16

end Sys2Proof
end

