-- ==== Sys2Proof/Syntax.lean ====
section
/-!
DEFINITION. The commands of the block, one constructor of `Instr` per row of the op-code map (30_encoding.md R82), and the value
types their operands carry.
-/

namespace Sys2Proof

/-- The checksum variant of a message or frame, chosen by op bit 0 of the command (10_state.md R30, 30_encoding.md R78). -/
inductive Variant where
  | crc
  | simple
deriving DecidableEq, Repr

/-- An event record: two raw bytes that the block does not interpret (10_state.md R34). -/
structure EventRecord where
  resultA : Byte
  resultB : Byte
deriving DecidableEq, Repr, Inhabited

/-- An event-buffer snapshot: the counter and exactly five records, `r0` the newest and `r4` the oldest (10_state.md R35,
00_scope.md R6). -/
structure EventSnapshot where
  counter : Byte
  r0 : EventRecord
  r1 : EventRecord
  r2 : EventRecord
  r3 : EventRecord
  r4 : EventRecord
deriving DecidableEq, Repr, Inhabited

/-- The command formats (30_encoding.md R79). -/
inductive Format where
  | Z | B | P | L | M | BLD | S
deriving DecidableEq, Repr

/-- The twelve defined op codes (30_encoding.md R82). -/
inductive Opcode where
  | crcClr | crcByte | crcCalc
  | sumClr | sumByte | sumCalc
  | buildCrc | buildSimple
  | parseCrc | parseSimple
  | feed | fwdDist
deriving DecidableEq, Repr

/-- A command with its operands. A `List Byte` operand is in wire order, index 0 first (20_memory.md R51); its length field is its
length and is not stored. `flags` is the whole flags byte of format BLD, reserved bits included (R80, R84). -/
inductive Instr where
  /-- CRC.CLR (40_checksum.md R102). -/
  | crcClr
  /-- CRC.BYTE b (R103). -/
  | crcByte (b : Byte)
  /-- CRC.CALC [p...] (R104). -/
  | crcCalc (p : List Byte)
  /-- SUM.CLR (R108). -/
  | sumClr
  /-- SUM.BYTE b (R109). -/
  | sumByte (b : Byte)
  /-- SUM.CALC d, s, h, [x...] (R110). -/
  | sumCalc (d s h : Byte) (x : List Byte)
  /-- BUILD.CRC (41_framing.md R135); `s` is carried by the format and ignored by the command. -/
  | buildCrc (flags d s h : Byte) (x : List Byte)
  /-- BUILD.SIMPLE (R136). -/
  | buildSimple (flags d s h : Byte) (x : List Byte)
  /-- PARSE.CRC [f...] (R143). -/
  | parseCrc (f : List Byte)
  /-- PARSE.SIMPLE [f...] (R144). -/
  | parseSimple (f : List Byte)
  /-- FEED c, [r0..r4] (42_reconciler.md R172). -/
  | feed (S : EventSnapshot)
  /-- FWD.DIST a, b (R171). -/
  | fwdDist (a b : Byte)
deriving DecidableEq, Repr

end Sys2Proof
end

