-- ==== Sys2Proof/Config.lean ====
section
/-!
DEFINITION. The instance parameter the spec leaves open, the constants the spec fixes, and the one free value. A constant declared
`opaque` has no value in Lean: a claim that holds of it holds whatever it is.
-/

namespace Sys2Proof.Config

/-- How much larger than the minimum 1 the history ring's capacity is. No value is known (00_scope.md R7, D15, I1).
DESIGN CHOICE in its form, safe (log entry 1). -/
opaque histExtra : Nat

/-- `HIST_N`, the capacity of the history ring: an instance parameter with `HIST_N >= 1`; no instance has 0 (R7,
70_reset_and_hazards.md R242). -/
def histN : Nat := histExtra + 1

/-- `K`, the event-buffer slot count and the reconciler's `bufferCapacity`, fixed at 5 (R6; 90_conflicts.md C6). -/
def bufferCapacity : Nat := 5

/-- `DATA_MAX`, the most payload bytes of a message (R8). -/
def dataMax : Nat := 255

/-- `FRAME_OVERHEAD`, the bytes of a frame besides its data (R8). -/
def frameOverhead : Nat := 5

/-- The most bytes of a format L operand (30_encoding.md R79, D25). -/
def byteSeqMax : Nat := 65535

/-- What `newest` yields of an empty history: the spec gives no value, because no run takes a loss there (10_state.md R27). A free
value, numbered by the response it goes into. DESIGN CHOICE, safe (log entry 6). -/
opaque absentSnapshot : Nat → EventSnapshot

end Sys2Proof.Config
end

