-- ==== Sys2Proof/WellFormed.lean ====
section
/-!
DEFINITION. Which terms of `Instr` have an encoding. A byte sequence is as long as its length field can say: at most 65535 bytes in
format L, at most 255 in formats M and BLD (30_encoding.md R79, R86). No other operand is restricted: every byte, flags byte and
snapshot is a legal operand (10_state.md R34, 42_reconciler.md R172).
-/

namespace Sys2Proof

/-- The check that a command's byte sequence fits its length field (R79, R86). -/
def Instr.wellFormed : Instr → Bool
  | .crcClr => true
  | .crcByte _ => true
  | .crcCalc p => decide (p.length ≤ Config.byteSeqMax)
  | .sumClr => true
  | .sumByte _ => true
  | .sumCalc _ _ _ x => decide (x.length ≤ Config.dataMax)
  | .buildCrc _ _ _ _ x => decide (x.length ≤ Config.dataMax)
  | .buildSimple _ _ _ _ x => decide (x.length ≤ Config.dataMax)
  | .parseCrc f => decide (f.length ≤ Config.byteSeqMax)
  | .parseSimple f => decide (f.length ≤ Config.byteSeqMax)
  | .feed _ => true
  | .fwdDist _ _ => true

end Sys2Proof
end

