-- ==== Sys2Proof/Decode.lean ====
section
/-!
DEFINITION. The command decoder and encoder (30_encoding.md Part 2). The decoder is total on any byte sequence: it answers a command
and its length, or an undefined op byte, or that the command is not complete yet. The encoder stands after it.
-/

namespace Sys2Proof

/-! ### The op-code map -/

/-- The op byte of each op code (R82). -/
def Opcode.byte : Opcode → Byte
  | .crcClr => 0x10
  | .crcByte => 0x11
  | .crcCalc => 0x12
  | .sumClr => 0x20
  | .sumByte => 0x21
  | .sumCalc => 0x22
  | .buildCrc => 0x30
  | .buildSimple => 0x31
  | .parseCrc => 0x40
  | .parseSimple => 0x41
  | .feed => 0x50
  | .fwdDist => 0x51

/-- The format of each op code (R82). -/
def Opcode.format : Opcode → Format
  | .crcClr => .Z
  | .crcByte => .B
  | .crcCalc => .L
  | .sumClr => .Z
  | .sumByte => .B
  | .sumCalc => .M
  | .buildCrc => .BLD
  | .buildSimple => .BLD
  | .parseCrc => .L
  | .parseSimple => .L
  | .feed => .S
  | .fwdDist => .P

/-- The twelve op codes in the map's order (R82). -/
def Opcode.all : List Opcode :=
  [.crcClr, .crcByte, .crcCalc, .sumClr, .sumByte, .sumCalc, .buildCrc, .buildSimple, .parseCrc, .parseSimple, .feed, .fwdDist]

/-- The op code an op byte names, matching the whole byte (mask `0xFF`, R82); none for an undefined op byte (R83). -/
def Opcode.ofByte (b : Byte) : Option Opcode := Opcode.all.find? fun o => o.byte == b

/-- The op code of a command. -/
def Instr.opcode : Instr → Opcode
  | .crcClr => .crcClr
  | .crcByte _ => .crcByte
  | .crcCalc _ => .crcCalc
  | .sumClr => .sumClr
  | .sumByte _ => .sumByte
  | .sumCalc _ _ _ _ => .sumCalc
  | .buildCrc _ _ _ _ _ => .buildCrc
  | .buildSimple _ _ _ _ _ => .buildSimple
  | .parseCrc _ => .parseCrc
  | .parseSimple _ => .parseSimple
  | .feed _ => .feed
  | .fwdDist _ _ => .fwdDist

/-- The unit an op byte names: `op[7:4]` (R78). -/
def opUnit (op : Byte) : BitVec 4 := op.extractLsb' 4 4

/-- The function an op byte names within its unit: `op[3:0]` (R78). -/
def opFunction (op : Byte) : BitVec 4 := op.extractLsb' 0 4

/-- The variant an op byte of units 3 and 4 selects: `op[0]`, 0 for CRC and 1 for SIMPLE (R78). -/
def opVariant (op : Byte) : Variant := if op.getLsbD 0 then .simple else .crc

/-! ### Snapshots -/

/-- The records of a snapshot in the spec's order, `records[0]` the newest (R35). -/
def EventSnapshot.records (S : EventSnapshot) : List EventRecord := [S.r0, S.r1, S.r2, S.r3, S.r4]

/-! ### Lengths -/

/-- Format L's length field, little-endian: `n = nlo + 256 * nhi` (R79, 20_memory.md R54). -/
def lengthL (nlo nhi : Byte) : Nat := nlo.toNat + 256 * nhi.toNat

/-- The length of the command that starts a byte sequence, its op byte counted, from the op byte and the length field alone (R85):
none while those bytes have not all arrived. -/
def commandLength : List Byte → Option Nat
  | [] => none
  | op :: rest =>
    match (Opcode.ofByte op).map Opcode.format with
    | none => some 1
    | some .Z => some 1
    | some .B => some 2
    | some .P => some 3
    | some .S => some 12
    | some .L =>
      match rest with
      | nlo :: nhi :: _ => some (3 + lengthL nlo nhi)
      | _ => none
    | some .M =>
      match rest with
      | _ :: _ :: _ :: n :: _ => some (5 + n.toNat)
      | _ => none
    | some .BLD =>
      match rest with
      | _ :: _ :: _ :: _ :: n :: _ => some (6 + n.toNat)
      | _ => none

/-! ### Decoding -/

/-- What the decoder reads at the start of a byte sequence. -/
inductive Decoded where
  /-- A complete command and the number of bytes it has. -/
  | command (i : Instr) (length : Nat)
  /-- An undefined op byte: a one-byte command (R83). -/
  | undefinedOp (op : Byte)
  /-- The bytes end before the command is complete: not yet a command (R87). -/
  | incomplete
deriving DecidableEq, Repr

/-- Format B: `[op, b]` (R79). The operand decoders take the bytes after the op byte. -/
def decodeB (mk : Byte → Instr) : List Byte → Decoded
  | b :: _ => .command (mk b) 2
  | [] => .incomplete

/-- Format P: `[op, a, b]` (R79). -/
def decodeP (mk : Byte → Byte → Instr) : List Byte → Decoded
  | a :: b :: _ => .command (mk a b) 3
  | _ => .incomplete

/-- Format L: `[op, nlo, nhi, p0 ... p(n-1)]` (R79). -/
def decodeL (mk : List Byte → Instr) : List Byte → Decoded
  | nlo :: nhi :: rest =>
    if lengthL nlo nhi ≤ rest.length then .command (mk (rest.take (lengthL nlo nhi))) (3 + lengthL nlo nhi) else .incomplete
  | _ => .incomplete

/-- Format M: `[op, d, s, h, n, x0 ... x(n-1)]` (R79). -/
def decodeM (mk : Byte → Byte → Byte → List Byte → Instr) : List Byte → Decoded
  | d :: s :: h :: n :: rest =>
    if n.toNat ≤ rest.length then .command (mk d s h (rest.take n.toNat)) (5 + n.toNat) else .incomplete
  | _ => .incomplete

/-- Format BLD: `[op, flags, d, s, h, n, x0 ... x(n-1)]`, consumed whole whatever its flags (R79, R84). -/
def decodeBLD (mk : Byte → Byte → Byte → Byte → List Byte → Instr) : List Byte → Decoded
  | flags :: d :: s :: h :: n :: rest =>
    if n.toNat ≤ rest.length then .command (mk flags d s h (rest.take n.toNat)) (6 + n.toNat) else .incomplete
  | _ => .incomplete

/-- Format S: `[op, c, a0, b0, ..., a4, b4]`, record 0 newest (R79, R81). -/
def decodeS (mk : EventSnapshot → Instr) : List Byte → Decoded
  | c :: a0 :: b0 :: a1 :: b1 :: a2 :: b2 :: a3 :: b3 :: a4 :: b4 :: _ =>
    .command (mk ⟨c, ⟨a0, b0⟩, ⟨a1, b1⟩, ⟨a2, b2⟩, ⟨a3, b3⟩, ⟨a4, b4⟩⟩) 12
  | _ => .incomplete

/-- The operands of a command whose op code is known, from the bytes after the op byte. -/
def decodeOperands : Opcode → List Byte → Decoded
  | .crcClr, _ => .command .crcClr 1
  | .crcByte, bs => decodeB .crcByte bs
  | .crcCalc, bs => decodeL .crcCalc bs
  | .sumClr, _ => .command .sumClr 1
  | .sumByte, bs => decodeB .sumByte bs
  | .sumCalc, bs => decodeM .sumCalc bs
  | .buildCrc, bs => decodeBLD .buildCrc bs
  | .buildSimple, bs => decodeBLD .buildSimple bs
  | .parseCrc, bs => decodeL .parseCrc bs
  | .parseSimple, bs => decodeL .parseSimple bs
  | .feed, bs => decodeS .feed bs
  | .fwdDist, bs => decodeP .fwdDist bs

/-- The command at the start of a byte sequence (R77). An empty sequence is an incomplete command. -/
def decode : List Byte → Decoded
  | [] => .incomplete
  | op :: rest =>
    match Opcode.ofByte op with
    | some o => decodeOperands o rest
    | none => .undefinedOp op

/-! ### Encoding -/

/-- The two length bytes of format L, low byte first (20_memory.md R54). -/
def encodeLengthL (n : Nat) : List Byte := [BitVec.ofNat 8 n, BitVec.ofNat 8 (n / 256)]

/-- The two bytes of a record (R81). -/
def encodeRecord (r : EventRecord) : List Byte := [r.resultA, r.resultB]

/-- The operand bytes of a command, after its op byte (R79 to R81). -/
def encodeOperands : Instr → List Byte
  | .crcClr => []
  | .crcByte b => [b]
  | .crcCalc p => encodeLengthL p.length ++ p
  | .sumClr => []
  | .sumByte b => [b]
  | .sumCalc d s h x => [d, s, h, BitVec.ofNat 8 x.length] ++ x
  | .buildCrc flags d s h x => [flags, d, s, h, BitVec.ofNat 8 x.length] ++ x
  | .buildSimple flags d s h x => [flags, d, s, h, BitVec.ofNat 8 x.length] ++ x
  | .parseCrc f => encodeLengthL f.length ++ f
  | .parseSimple f => encodeLengthL f.length ++ f
  | .feed S => S.counter :: S.records.flatMap encodeRecord
  | .fwdDist a b => [a, b]

/-- The bytes of a command. They are the command's encoding when it is well-formed. -/
def encode (i : Instr) : List Byte := i.opcode.byte :: encodeOperands i

/-! ### Words of the op-code table -/

/-- The low `k` bytes of a number, the least significant first. -/
def bytesOfNat : Nat → Nat → List Byte
  | 0, _ => []
  | k + 1, w => BitVec.ofNat 8 w :: bytesOfNat k (w / 256)

/-- The bytes of the command whose first `nbits` bits are `w`, every later bit zero: the bytes of `w`, then zero bytes up to the
length that R85 gives the command. The bytes stand in the order in which the port takes them (log entry 8). -/
def tableBytes (nbits w : Nat) : List Byte :=
  let given := bytesOfNat ((nbits + 7) / 8) (w % 2 ^ nbits)
  match commandLength (given ++ List.replicate 6 0) with
  | some n => given ++ List.replicate (n - given.length) 0
  | none => given

/-- The command the decoder reads from a word of the op-code table; none for an undefined op byte. -/
def decodeTableWord (nbits w : Nat) : Option Instr :=
  match decode (tableBytes nbits w) with
  | .command i _ => some i
  | .undefinedOp _ => none
  | .incomplete => none

end Sys2Proof
end

