-- ==== Sys2Proof/Machine/State.lean ====
section
/-!
DEFINITION. The state of one block instance (10_state.md R20), the two ports the model keeps beside it, the values a response carries
(R31 to R37), and reset (70_reset_and_hazards.md R240). State is plain data.
-/

namespace Sys2Proof.Machine

/-- A message of one of the two variants. `dataLength` is not stored: it is the length of `data` (10_state.md R31). Two messages are
equal when their variants and every field, checksum included, are equal (R33). -/
inductive Message where
  /-- A CRC-variant message, with no source field. -/
  | crc (destination header : Byte) (data : List Byte) (checksum : Word16)
  /-- A SIMPLE-variant message. -/
  | simple (destination source header : Byte) (data : List Byte) (checksum : Byte)
deriving DecidableEq, Repr

/-- One item of a FEED response (R36). -/
inductive Output where
  /-- A new event, the hardware form of `onNewEvent`. -/
  | event (r : EventRecord)
  /-- A loss notification, the hardware form of `onLostEvents`; informational, not an error (60_exceptions.md R220). -/
  | loss (lostCount : Nat) (previousSnapshot newSnapshot : EventSnapshot)
deriving DecidableEq, Repr

/-- The payload of an OK response, typed by the command (R37). -/
inductive Payload where
  /-- CRC.CLR, CRC.BYTE, CRC.CALC: 16 bits. -/
  | word (v : Word16)
  /-- SUM.CLR, SUM.BYTE, SUM.CALC, FWD.DIST: 8 bits. -/
  | byte (v : Byte)
  /-- BUILD.CRC, BUILD.SIMPLE: the message and its frame. -/
  | built (message : Message) (frame : List Byte)
  /-- PARSE.CRC, PARSE.SIMPLE: the message. -/
  | parsed (message : Message)
  /-- FEED: the output items, in order. -/
  | items (out : List Output)
deriving DecidableEq, Repr

/-- The statuses of 60_exceptions.md R210. -/
inductive Status where
  | ok | framingTooShort | framingLengthMismatch | checksumMismatch | buildError | illegalOperation
deriving DecidableEq, Repr

/-- A response: a status and the payload that the status has (R37, 60_exceptions.md R210). One constructor per status, two for
CHECKSUM_MISMATCH, whose values are 16-bit or 8-bit by variant (R214). -/
inductive Response where
  | ok (payload : Payload)
  | framingTooShort (actual : Nat)
  | framingLengthMismatch (declared : Byte) (actual : Nat)
  | crcMismatch (expected received : Word16)
  | simpleMismatch (expected received : Byte)
  | buildError (mask : BitVec 4)
  | illegalOperation (op : Byte)
deriving DecidableEq, Repr

/-- What arrives at the block's inputs, in the order of arrival: a byte on the command port (30_encoding.md R77), or the reset input
(70_reset_and_hazards.md R241). -/
inductive Input where
  | byte (b : Byte)
  | reset
deriving DecidableEq, Repr

/-- The state. The first five fields are exactly the record of 10_state.md R20; the last two are the model's own and hold the block's
two ports (log entries 2 and 3). -/
structure State where
  /-- `crc_acc`, the CRC generator register (R21). -/
  crcAcc : Word16
  /-- `sum_acc`, the running sum (R22). -/
  sumAcc : Byte
  /-- `initialized`, the reconciler's flag: `false` is Uninitialized, `true` is Tracking (R23). -/
  initialized : Bool
  /-- `lastCounter`, the counter of the last snapshot accepted (R24). -/
  lastCounter : Byte
  /-- `history`, the history ring, oldest first (R25). -/
  history : List EventSnapshot
  /-- The inputs that have arrived and are not consumed, oldest first. DESIGN CHOICE, log entry 3. -/
  inputs : List Input
  /-- The responses given, oldest first. DESIGN CHOICE, log entry 2. -/
  responses : List Response
deriving DecidableEq, Repr

/-- Why the block takes no step. No command raises one of these. -/
inductive Fault where
  /-- No byte is on the command port: the block waits (30_encoding.md R87). Raised by the step alone. Safe: nothing has changed. -/
  | portEmpty
  /-- The bytes on the command port end before their command is complete: the block waits for the rest (R87, I6). Raised by the step
  alone. Safe: nothing has changed, and nothing is consumed. -/
  | commandIncomplete
deriving DecidableEq, Repr

/-- Why an instruction has no meaning. -/
inductive Refusal where
  /-- Raised by an arm of `exec` for an instruction that is not modelled. No arm raises it in this model. Safe. -/
  | notModelled (mnemonic : String)
deriving DecidableEq, Repr

/-- The state right after reset (70_reset_and_hazards.md R240). Both ports are empty: DESIGN CHOICE, log entries 2 and 3. -/
def State.reset : State where
  crcAcc := 0x0000
  sumAcc := 0x00
  initialized := false
  lastCounter := 0x00
  history := []
  inputs := []
  responses := []

end Sys2Proof.Machine
end

