-- ==== Sys2Proof/Machine/Ops.lean ====
section
/-!
DEFINITION. The operations every command is written with: giving a response, raising an error, writing each state element, the
history ring, the ports, and the reset input. The block has no memory (20_memory.md R50), so there is no memory operation.
-/

namespace Sys2Proof.Machine

/-! ### Responses -/

/-- The numeric code of a status; `0x06` to `0xFF` are never produced (R210). -/
def Status.code : Status → Byte
  | .ok => 0x00
  | .framingTooShort => 0x01
  | .framingLengthMismatch => 0x02
  | .checksumMismatch => 0x03
  | .buildError => 0x04
  | .illegalOperation => 0x05

/-- The status of a response (10_state.md R37). -/
def Response.status : Response → Status
  | .ok _ => .ok
  | .framingTooShort _ => .framingTooShort
  | .framingLengthMismatch _ _ => .framingLengthMismatch
  | .crcMismatch _ _ => .checksumMismatch
  | .simpleMismatch _ _ => .checksumMismatch
  | .buildError _ => .buildError
  | .illegalOperation _ => .illegalOperation

/-- The command completes with this response: it is given after every earlier one (00_scope.md R12, 20_memory.md R60). -/
def State.respond (s : State) (r : Response) : State := { s with responses := s.responses ++ [r] }

/-- `respond OK(payload)` (R12). -/
def State.respondOk (s : State) (p : Payload) : State := s.respond (.ok p)

/-- `raise`: the command completes with an error response. `s` is the state before the command, so every write of the command is
discarded: nothing is saved, no handler runs, no error is sticky (R12, 60_exceptions.md R211, R222). This is the block's only way of
taking an exception, and there is nothing to return from. -/
def State.raise (s : State) (r : Response) : State := s.respond r

/-- The command completes with the response a unit has computed, an error being raised (60_exceptions.md R211). -/
def State.complete (s : State) (r : Response) : Host.Outcome State Fault Refusal :=
  match r with
  | .ok p => .next (s.respondOk p)
  | e => .next (s.raise e)

/-! ### State elements -/

/-- Write `crc_acc` (10_state.md R21). -/
def State.setCrc (s : State) (v : Word16) : State := { s with crcAcc := v }

/-- Write `sum_acc` (R22). -/
def State.setSum (s : State) (v : Byte) : State := { s with sumAcc := v }

/-- Drop the oldest entries while there are more than `cap` (00_scope.md R12). -/
def trim (cap : Nat) : List EventSnapshot → List EventSnapshot
  | [] => []
  | x :: xs => if cap < (x :: xs).length then trim cap xs else x :: xs

/-- `push(h, S)`: append, then drop the oldest while there are more than the capacity (R12, R25). -/
def push (cap : Nat) (h : List EventSnapshot) (S : EventSnapshot) : List EventSnapshot := trim cap (h ++ [S])

/-- `newest(h)`: the last entry (R12). `absent` stands where there is none (log entry 6). -/
def newest (absent : EventSnapshot) (h : List EventSnapshot) : EventSnapshot := h.getLastD absent

/-- Accept a snapshot: `history <- push(h, S)`, `lastCounter <- S.counter`, and the reconciler is initialized (42_reconciler.md R176,
R177). -/
def State.accept (s : State) (cap : Nat) (h : List EventSnapshot) (S : EventSnapshot) : State :=
  { s with initialized := true, lastCounter := S.counter, history := push cap h S }

/-! ### Ports -/

/-- The bytes at the front of the inputs, up to a reset. -/
def arrived : List Input → List Byte
  | .byte b :: rest => b :: arrived rest
  | .reset :: _ => []
  | [] => []

/-- The environment adds inputs behind those already there. -/
def State.receive (s : State) (new : List Input) : State := { s with inputs := s.inputs ++ new }

/-- Take the bytes of one command from the port (30_encoding.md R77). -/
def State.consume (s : State) (n : Nat) : State := { s with inputs := s.inputs.drop n }

/-- The reset input acts: every element of R20 takes its reset value, and the bytes before the reset are gone; `rest` are the inputs
after it (70_reset_and_hazards.md R240, R241). It is not a command, so it gives no response; the responses already given stand
(DESIGN CHOICE, log entry 4). -/
def State.applyReset (s : State) (rest : List Input) : State :=
  { State.reset with inputs := rest, responses := s.responses }

/-- An undefined op byte: one byte is consumed, nothing is written, ILLEGAL_OPERATION is the response (30_encoding.md R83). -/
def State.undefinedOp (s : State) (op : Byte) : State := (s.consume 1).raise (.illegalOperation op)

/-- What happens when the bytes before the next reset, or all the bytes there are, hold no complete command: a reset that has arrived
acts (R241); otherwise the block is stuck and waits (30_encoding.md R87). -/
def State.await (s : State) : Host.Outcome State Fault Refusal :=
  match s.inputs.drop (arrived s.inputs).length with
  | .reset :: rest => .next (s.applyReset rest)
  | _ => if s.inputs = [] then .fault .portEmpty else .fault .commandIncomplete

end Sys2Proof.Machine
end

