-- ==== Sys2Proof/Machine/Operands.lean ====
section
/-!
DEFINITION. The fields that commands read out of their operands: subsequences, the two halves of a CRC, and the fields of a received
frame (00_scope.md R9, R10; 20_memory.md R53; 41_framing.md R139, R140). Operands are otherwise used as they come (30_encoding.md R86).
-/

namespace Sys2Proof.Machine

/-- `crcMSB = c[15:8]` (20_memory.md R53). -/
def crcMSB (c : Word16) : Byte := c.extractLsb' 8 8

/-- `crcLSB = c[7:0]` (R53). -/
def crcLSB (c : Word16) : Byte := c.extractLsb' 0 8

/-- A received CRC: `crcMSB * 256 + crcLSB` (R53, 41_framing.md R139). -/
def joinCrc (msb lsb : Byte) : Word16 := BitVec.ofNat 16 (msb.toNat * 256 + lsb.toNat)

/-- `f[i]`. The parser reads only indices inside the frame, where the zero for a missing byte does not occur. -/
def byteAt (f : List Byte) (i : Nat) : Byte := f.getD i 0

/-- The number of data bytes a frame declares, `n = f[1]` (41_framing.md R138). -/
def declaredLength (f : List Byte) : Byte := byteAt f 1

/-- The whole length of a frame, once its first two bytes are known: `5 + byte1` (30_encoding.md R72, R75). -/
def frameLength (byte1 : Byte) : Nat := Config.frameOverhead + byte1.toNat

/-- `data = f[4..3+n]` with `n = f[1]` (R139, R140). -/
def frameData (f : List Byte) : List Byte := (f.drop 4).take (declaredLength f).toNat

/-- `dataLength` as the byte a frame carries (30_encoding.md R70, R71). For at most 255 data bytes it is their number; a longer list
has no frame (log entry 7). -/
def lengthByte (x : List Byte) : Byte := BitVec.ofNat 8 x.length

/-- The CRC feed of a message: `[destination, dataLength, header] ++ data`, without the checksum bytes (R74). -/
def crcFeed (d h : Byte) (x : List Byte) : List Byte := [d, lengthByte x, h] ++ x

end Sys2Proof.Machine
end

