-- ==== Sys2Proof/Machine/Crc.lean ====
section
/-!
DEFINITION. The CRC-16/CCITT generator (40_checksum.md sections 1 and 2): polynomial `0x1021`, initial value 0, bits taken MSB first,
no reflection, no final XOR (R100, R101).
-/

namespace Sys2Proof.Machine

/-- One bit of `crcStep`: shift left, and apply the polynomial when the bit shifted out is 1 (R100). -/
def crcShift (c : Word16) : Word16 := if c.getLsbD 15 then (c <<< 1) ^^^ 0x1021 else c <<< 1

/-- `crcStep(crc, b)`: the byte goes into bits 15:8, then eight shifts (R100). -/
def crcStep (crc : Word16) (b : Byte) : Word16 := Nat.repeat crcShift 8 (crc ^^^ (b.setWidth 16 <<< 8))

/-- `crc16(bs)`: from 0x0000, byte 0 first (R101). -/
def crc16 (bs : List Byte) : Word16 := bs.foldl crcStep 0x0000

/-- CRC.CLR: `crc_acc <- 0x0000; respond OK(0x0000)` (R102). -/
def execCrcClr (s : State) : Host.Outcome State Fault Refusal :=
  .next ((s.setCrc 0x0000).respondOk (.word 0x0000))

/-- CRC.BYTE b: `v <- crcStep(crc_acc, b); crc_acc <- v; respond OK(v)` (R103). -/
def execCrcByte (b : Byte) (s : State) : Host.Outcome State Fault Refusal :=
  .next ((s.setCrc (crcStep s.crcAcc b)).respondOk (.word (crcStep s.crcAcc b)))

/-- CRC.CALC [p...]: `respond OK(crc16(p))`; `crc_acc` is neither read nor written (R104). -/
def execCrcCalc (p : List Byte) (s : State) : Host.Outcome State Fault Refusal :=
  .next (s.respondOk (.word (crc16 p)))

end Sys2Proof.Machine
end

