-- ==== Sys2Proof/Machine/Flags.lean ====
section
/-!
DEFINITION. The block has no flags register: every command's "flags written" is none (10_state.md R28). The flags there are stand in
the flags byte of format BLD (30_encoding.md R80), and the builder's field checks turn them into the mask of a BUILD_ERROR
(41_framing.md R134).
-/

namespace Sys2Proof.Machine

/-- DV, bit 0: `destination` is set (R80). -/
def flagDV (flags : Byte) : Bool := flags.getLsbD 0

/-- SV, bit 1: `source` is set (R80). -/
def flagSV (flags : Byte) : Bool := flags.getLsbD 1

/-- HV, bit 2: `header` is set (R80). -/
def flagHV (flags : Byte) : Bool := flags.getLsbD 2

/-- Whether `flags[7:3] != 0` (R84). -/
def reservedSet (flags : Byte) : Bool := flags.extractLsb' 3 5 != 0

/-- The mask bit of one check: set when the check fails. -/
def maskBit (failed : Bool) (bit : BitVec 4) : BitVec 4 := if failed then bit else 0

/-- The builder's checks, all made together (41_framing.md R134): bit 0 destination unset, bit 1 source unset, bit 2 header unset,
bit 3 source zero, the two source bits in the SIMPLE variant only. No value of `d` is checked. -/
def buildMask (v : Variant) (dv : Bool) (_d : Byte) (sv : Bool) (s : Byte) (hv : Bool) : BitVec 4 :=
  maskBit (!dv) 0b0001 ||| maskBit (!hv) 0b0100 |||
    match v with
    | .crc => 0
    | .simple => if sv then maskBit (s == 0) 0b1000 else 0b0010

end Sys2Proof.Machine
end

