-- ==== Sys2Proof/Machine/Sum.lean ====
section
/-!
DEFINITION. The two's-complement (simple) checksum encoder (40_checksum.md sections 3 and 4).
-/

namespace Sys2Proof.Machine

/-- `neg8(x) = (256 - (x mod 256)) mod 256` (R106). -/
def neg8 (x : Nat) : Byte := BitVec.ofNat 8 ((256 - x % 256) % 256)

/-- `Σbs`: the sum of the bytes as an unbounded natural number (00_scope.md R10). -/
def byteSum (bs : List Byte) : Nat := (bs.map BitVec.toNat).sum

/-- `simpleChecksum(d, s, h, x)`: the exact sum of the fields and of the number of data bytes, negated in its low byte (R107). -/
def simpleChecksum (d s h : Byte) (x : List Byte) : Byte :=
  neg8 ((d.toNat + s.toNat + h.toNat + x.length + byteSum x) % 256)

/-- SUM.CLR: `sum_acc <- 0x00; respond OK(0x00)` (R108). -/
def execSumClr (s : State) : Host.Outcome State Fault Refusal :=
  .next ((s.setSum 0x00).respondOk (.byte 0x00))

/-- SUM.BYTE b: `v <- (sum_acc + b) mod 256; sum_acc <- v; respond OK(neg8(v))`; the carry is discarded (R109). -/
def execSumByte (b : Byte) (s : State) : Host.Outcome State Fault Refusal :=
  .next ((s.setSum (s.sumAcc + b)).respondOk (.byte (neg8 (s.sumAcc + b).toNat)))

/-- SUM.CALC d, s, h, [x...]: `respond OK(simpleChecksum(d, s, h, x))`; `sum_acc` is neither read nor written, and a zero source is
not checked (R110). -/
def execSumCalc (d src h : Byte) (x : List Byte) (s : State) : Host.Outcome State Fault Refusal :=
  .next (s.respondOk (.byte (simpleChecksum d src h x)))

end Sys2Proof.Machine
end

