-- ==== Sys2Proof/Machine/Framer.lean ====
section
/-!
DEFINITION. Messages, frames and the builder (41_framing.md sections 1 and 2).
-/

namespace Sys2Proof.Machine

/-- `makeCRC(d, h, x)` (R132). -/
def makeCrc (d h : Byte) (x : List Byte) : Message := .crc d h x (crc16 (crcFeed d h x))

/-- `makeSIMPLE(d, s, h, x)` (R133). -/
def makeSimple (d s h : Byte) (x : List Byte) : Message := .simple d s h x (simpleChecksum d s h x)

/-- The frame of a message: `encodeCRC(m)` or `encodeSIMPLE(m)` (R130, R131; the layouts of 30_encoding.md R70, R71). -/
def encodeFrame : Message → List Byte
  | .crc d h x c => [d, lengthByte x, crcLSB c, h] ++ x ++ [crcMSB c]
  | .simple d s h x c => [d, lengthByte x, s, h] ++ x ++ [c]

/-- A BUILD command: the reserved flag bits first, then the field checks, then the message and its frame (R135, R136, 60_exceptions.md
R218). `op` is the command's op byte; `m` is the message its fields make, used only when every check passes. -/
def build (op : Byte) (v : Variant) (flags d s : Byte) (m : Message) : Response :=
  if reservedSet flags then .illegalOperation op
  else
    let mask := buildMask v (flagDV flags) d (flagSV flags) s (flagHV flags)
    if mask ≠ 0 then .buildError mask else .ok (.built m (encodeFrame m))

/-- BUILD.CRC: SV and the source byte are ignored (R135). -/
def execBuildCrc (flags d src h : Byte) (x : List Byte) (s : State) : Host.Outcome State Fault Refusal :=
  s.complete (build Opcode.buildCrc.byte .crc flags d src (makeCrc d h x))

/-- BUILD.SIMPLE (R136). -/
def execBuildSimple (flags d src h : Byte) (x : List Byte) (s : State) : Host.Outcome State Fault Refusal :=
  s.complete (build Opcode.buildSimple.byte .simple flags d src (makeSimple d src h x))

end Sys2Proof.Machine
end

