-- ==== Sys2Proof/Machine/Parser.lean ====
section
/-!
DEFINITION. The frame parser (41_framing.md section 3). The steps are applied in the spec's order, and the first that fails decides
the response (60_exceptions.md R218). The variant is given by the command and never detected (41_framing.md R147).
-/

namespace Sys2Proof.Machine

/-- Steps 1 and 2, the same in both variants: minimum length, then length match (R137, R138); `checked` is what steps 3 and 4 give. -/
def parseFrame (f : List Byte) (checked : Response) : Response :=
  if f.length < Config.frameOverhead then .framingTooShort f.length
  else if f.length ≠ frameLength (declaredLength f) then .framingLengthMismatch (declaredLength f) f.length
  else checked

/-- Steps 3 and 4 of the CRC variant: extract the fields, recompute the CRC of the feed, compare (R139, R141). -/
def checkCrc (f : List Byte) : Response :=
  let expected := crc16 ([byteAt f 0, declaredLength f, byteAt f 3] ++ frameData f)
  let received := joinCrc (byteAt f (f.length - 1)) (byteAt f 2)
  if expected ≠ received then .crcMismatch expected received
  else .ok (.parsed (makeCrc (byteAt f 0) (byteAt f 3) (frameData f)))

/-- Steps 3 and 4 of the SIMPLE variant; a zero source is accepted (R140, R142). -/
def checkSimple (f : List Byte) : Response :=
  let expected := simpleChecksum (byteAt f 0) (byteAt f 2) (byteAt f 3) (frameData f)
  let received := byteAt f (f.length - 1)
  if expected ≠ received then .simpleMismatch expected received
  else .ok (.parsed (makeSimple (byteAt f 0) (byteAt f 2) (byteAt f 3) (frameData f)))

/-- The parser of the given variant (30_encoding.md R78; R143, R144). -/
def parse : Variant → List Byte → Response
  | .crc, f => parseFrame f (checkCrc f)
  | .simple, f => parseFrame f (checkSimple f)

/-- PARSE.CRC [f...]: no state element is touched (R143). -/
def execParseCrc (f : List Byte) (s : State) : Host.Outcome State Fault Refusal := s.complete (parse .crc f)

/-- PARSE.SIMPLE [f...]: no state element is touched (R144). -/
def execParseSimple (f : List Byte) (s : State) : Host.Outcome State Fault Refusal := s.complete (parse .simple f)

end Sys2Proof.Machine
end

