-- ==== Sys2Proof/Machine/Reconciler.lean ====
section
/-!
DEFINITION. The event-sequence reconciler (42_reconciler.md).
-/

namespace Sys2Proof.Machine

/-- `fwdDist(a, b) = (b - a) mod 256`, the counter steps forward from `a` to `b` (R170). -/
def fwdDist (a b : Byte) : Byte := b - a

/-- Step 2: exactly one loss notification when more events happened than the buffer holds (R174). -/
def lossItems (diff : Nat) (previous S : EventSnapshot) : List Output :=
  if Config.bufferCapacity < diff then [.loss (diff - Config.bufferCapacity) previous S] else []

/-- Steps 3 and 4: the `k` newest records, oldest first (R175). -/
def replay (k : Nat) (S : EventSnapshot) : List Output := (S.records.take k).reverse.map .event

/-- The items of a FEED that is not the seeding one: the loss before every event (R174, R175, 20_memory.md R61). Nothing when `diff`
is 0 (R173). -/
def feedItems (diff : Nat) (previous S : EventSnapshot) : List Output :=
  lossItems diff previous S ++ replay (min diff Config.bufferCapacity) S

/-- The FEED algorithm for a ring of `cap` snapshots; `absent` stands for the newest entry of an empty ring (R172 to R177, R180, R181).
The first FEED seeds: no replay and no loss check (R177). A FEED of the counter last seen does nothing (R173). -/
def State.feed (s : State) (cap : Nat) (absent : EventSnapshot) (S : EventSnapshot) : State :=
  if s.initialized = false then (s.accept cap [] S).respondOk (.items [])
  else
    let diff := fwdDist s.lastCounter S.counter
    if diff = 0 then s.respondOk (.items [])
    else (s.accept cap s.history S).respondOk (.items (feedItems diff.toNat (newest absent s.history) S))

/-- FEED c, [r0..r4]: it raises no error, whatever the snapshot (R172, R179). -/
def execFeed (S : EventSnapshot) (s : State) : Host.Outcome State Fault Refusal :=
  .next (s.feed Config.histN (Config.absentSnapshot s.responses.length) S)

/-- FWD.DIST a, b: `respond OK(fwdDist(a, b))` (R171). -/
def execFwdDist (a b : Byte) (s : State) : Host.Outcome State Fault Refusal :=
  .next (s.respondOk (.byte (fwdDist a b)))

end Sys2Proof.Machine
end

