-- ==== Sys2Proof/Machine/Dispatch.lean ====
section
/-!
DEFINITION. The meaning of each command, one arm per row of the op-code map (30_encoding.md R82).
-/

namespace Sys2Proof.Machine

def exec (i : Instr) (s : State) : Host.Outcome State Fault Refusal :=
  match i with
  | .crcClr => Sys2Proof.Machine.execCrcClr s
  | .crcByte b => Sys2Proof.Machine.execCrcByte b s
  | .crcCalc p => Sys2Proof.Machine.execCrcCalc p s
  | .sumClr => Sys2Proof.Machine.execSumClr s
  | .sumByte b => Sys2Proof.Machine.execSumByte b s
  | .sumCalc d src h x => Sys2Proof.Machine.execSumCalc d src h x s
  | .buildCrc flags d src h x => Sys2Proof.Machine.execBuildCrc flags d src h x s
  | .buildSimple flags d src h x => Sys2Proof.Machine.execBuildSimple flags d src h x s
  | .parseCrc f => Sys2Proof.Machine.execParseCrc f s
  | .parseSimple f => Sys2Proof.Machine.execParseSimple f s
  | .feed S => Sys2Proof.Machine.execFeed S s
  | .fwdDist a b => Sys2Proof.Machine.execFwdDist a b s

end Sys2Proof.Machine
end

