-- ==== Sys2Proof/Machine/Step.lean ====
section
/-!
DEFINITION. One step of the block: take the command at the front of the command port and execute it (30_encoding.md R77, 20_memory.md
R60).
-/

namespace Sys2Proof.Machine

/-- One step. A complete command is consumed and executed; an undefined op byte is consumed and answered with ILLEGAL_OPERATION
(R83); otherwise a reset that has arrived acts, or the block waits (R87, 70_reset_and_hazards.md R241). -/
def step (s : State) : Host.Outcome State Fault Refusal :=
  match decode (arrived s.inputs) with
  | .command i n => exec i (s.consume n)
  | .undefinedOp op => .next (s.undefinedOp op)
  | .incomplete => s.await

/-- The state with the command of a word of the op-code table placed at the front of the command port, where `step` takes its next
command (log entry 8). -/
def State.withFetchWord (s : State) (nbits w : Nat) : State :=
  { s with inputs := (tableBytes nbits w).map .byte ++ s.inputs }

end Sys2Proof.Machine
end

