-- ==== Sys2Proof/Machine/Assembler.lean ====
section
/-!
DEFINITION. The assembler of 30_encoding.md Part 3 (R88, R89): a notation over the command bytes, and no part of the block itself. What
the spec leaves open of the text's spelling is fixed here (DESIGN CHOICE, log entry 9).
-/

namespace Sys2Proof.Machine

/-! ### Lines -/

/-- One line of assembly (R88), or a pseudo-instruction (R89). An operand left out of a BUILD line is `none`; `data=` left out is the
empty list. -/
inductive AsmLine where
  | crcClr
  | crcByte (b : Byte)
  | crcCalc (p : List Byte)
  | sumClr
  | sumByte (b : Byte)
  | sumCalc (d s h : Byte) (x : List Byte)
  | buildCrc (dst hdr : Option Byte) (data : List Byte)
  | buildSimple (dst src hdr : Option Byte) (data : List Byte)
  | parseCrc (f : List Byte)
  | parseSimple (f : List Byte)
  | feed (S : EventSnapshot)
  | fwdDist (a b : Byte)
  | rawByte (v : Byte)
  | crcStream (bs : List Byte)
  | sumStream (bs : List Byte)
deriving DecidableEq, Repr

/-- `flags = DV + 2*SV + 4*HV` (R88). -/
def asmFlags (dst src hdr : Option Byte) : Byte :=
  (if dst.isSome then 1 else 0) + (if src.isSome then 2 else 0) + (if hdr.isSome then 4 else 0)

/-- `CRC.STREAM bs`: CRC.CLR, then CRC.BYTE on each byte (R89). -/
def streamCrc (bs : List Byte) : List Instr := .crcClr :: bs.map .crcByte

/-- `SUM.STREAM bs`: SUM.CLR, then SUM.BYTE on each byte (R89). -/
def streamSum (bs : List Byte) : List Instr := .sumClr :: bs.map .sumByte

/-- The commands a line stands for (R88, R89); an unset field is byte 00. `.byte` stands for no command. -/
def AsmLine.commands : AsmLine → List Instr
  | .crcClr => [.crcClr]
  | .crcByte b => [.crcByte b]
  | .crcCalc p => [.crcCalc p]
  | .sumClr => [.sumClr]
  | .sumByte b => [.sumByte b]
  | .sumCalc d s h x => [.sumCalc d s h x]
  | .buildCrc dst hdr data => [.buildCrc (asmFlags dst none hdr) (dst.getD 0) 0 (hdr.getD 0) data]
  | .buildSimple dst src hdr data =>
    [.buildSimple (asmFlags dst src hdr) (dst.getD 0) (src.getD 0) (hdr.getD 0) data]
  | .parseCrc f => [.parseCrc f]
  | .parseSimple f => [.parseSimple f]
  | .feed S => [.feed S]
  | .fwdDist a b => [.fwdDist a b]
  | .rawByte _ => []
  | .crcStream bs => streamCrc bs
  | .sumStream bs => streamSum bs

/-- The bytes of a line; none for a line with more bytes than a length field can say (R88). -/
def AsmLine.assemble (l : AsmLine) : Option (List Byte) :=
  match l with
  | .rawByte v => some [v]
  | _ => if l.commands.all Instr.wellFormed then some (l.commands.flatMap encode) else none

/-! ### Text -/

/-- A token of a line: a run of letters, digits and full stops, or one of the characters `[ ] ( ) , =`. -/
inductive Token where
  | word (cs : List Char)
  | sym (c : Char)
deriving DecidableEq, Repr

/-- A character of a word. -/
def wordChar (c : Char) : Bool := c.isAlphanum || c == '.'

/-- The word collected so far, if any. -/
def flushWord (acc : List Char) : List Token := if acc = [] then [] else [.word acc.reverse]

/-- The tokens of a line, `;` starting a comment (R88); none when it holds any other character. `acc` is the word read so far, last
character first. -/
def lexLine : List Char → List Char → Option (List Token)
  | [], acc => some (flushWord acc)
  | c :: cs, acc =>
    if c == ';' then some (flushWord acc)
    else if wordChar c then lexLine cs (c :: acc)
    else if c == ' ' || c == '\t' || c == '\r' then (lexLine cs []).map (flushWord acc ++ ·)
    else if ['[', ']', '(', ')', ',', '='].contains c then (lexLine cs []).map (flushWord acc ++ .sym c :: ·)
    else none

/-- A hexadecimal digit. -/
def hexDigit (c : Char) : Option Nat :=
  if '0' ≤ c ∧ c ≤ '9' then some (c.toNat - '0'.toNat)
  else if 'a' ≤ c ∧ c ≤ 'f' then some (c.toNat - 'a'.toNat + 10)
  else if 'A' ≤ c ∧ c ≤ 'F' then some (c.toNat - 'A'.toNat + 10)
  else none

/-- The number a run of digits writes in a base, after `n`; none when a character is no digit of the base. -/
def digits (base : Nat) : Nat → List Char → Option Nat
  | n, [] => some n
  | n, c :: cs => (hexDigit c).bind fun d => if d < base then digits base (n * base + d) cs else none

/-- A byte written in decimal or in `0x` hexadecimal (R88); none above 255. -/
def number (cs : List Char) : Option Byte :=
  let value :=
    match cs with
    | '0' :: 'x' :: c :: rest => digits 16 0 (c :: rest)
    | c :: rest => digits 10 0 (c :: rest)
    | [] => none
  value.bind fun n => if n < 256 then some (BitVec.ofNat 8 n) else none

/-- The rest of a byte list after its first byte: `, b` repeated, then `]`. -/
def bytesTail : List Token → Option (List Byte × List Token)
  | .sym ']' :: ts => some ([], ts)
  | .sym ',' :: .word w :: ts => do
    let b ← number w
    let (bs, rest) ← bytesTail ts
    some (b :: bs, rest)
  | _ => none

/-- A byte list `[b0, b1, ...]` (R88), and the tokens after it. -/
def byteList : List Token → Option (List Byte × List Token)
  | .sym '[' :: .sym ']' :: ts => some ([], ts)
  | .sym '[' :: .word w :: ts => do
    let b ← number w
    let (bs, rest) ← bytesTail ts
    some (b :: bs, rest)
  | _ => none

/-- A byte list that ends the line. -/
def lastByteList (ts : List Token) : Option (List Byte) := do
  let (bs, rest) ← byteList ts
  if rest = [] then some bs else none

/-- A record `(a, b)` behind the given character (R88), and the tokens after it. -/
def recordAfter (opener : Char) : List Token → Option (EventRecord × List Token)
  | .sym o :: .sym '(' :: .word a :: .sym ',' :: .word b :: .sym ')' :: ts => do
    if o = opener then some (⟨← number a, ← number b⟩, ts) else none
  | _ => none

/-- The operands of FEED: `c, [(a0,b0), ..., (a4,b4)]` (R88). -/
def feedOperands : List Token → Option EventSnapshot
  | .word c :: .sym ',' :: ts => do
    let (r0, ts) ← recordAfter '[' ts
    let (r1, ts) ← recordAfter ',' ts
    let (r2, ts) ← recordAfter ',' ts
    let (r3, ts) ← recordAfter ',' ts
    let (r4, ts) ← recordAfter ',' ts
    if ts = [.sym ']'] then some ⟨← number c, r0, r1, r2, r3, r4⟩ else none
  | _ => none

/-- The operands of a BUILD line as read so far. -/
structure BuildOperands where
  dst : Option Byte := none
  src : Option Byte := none
  hdr : Option Byte := none
  data : Option (List Byte) := none
deriving DecidableEq, Repr

/-- The `key=value` operands of a BUILD line, each key at most once (R88). The first argument bounds the number of operands. -/
def buildOperands : Nat → BuildOperands → List Token → Option BuildOperands
  | 0, _, _ => none
  | k + 1, o, .word key :: .sym '=' :: ts => do
    let (o, rest) ←
      if key = "data".toList then
        if o.data = none then (byteList ts).map fun (x, rest) => ({ o with data := some x }, rest) else none
      else
        match ts with
        | .word w :: rest => do
          let v ← number w
          if key = "dst".toList ∧ o.dst = none then some ({ o with dst := some v }, rest)
          else if key = "src".toList ∧ o.src = none then some ({ o with src := some v }, rest)
          else if key = "hdr".toList ∧ o.hdr = none then some ({ o with hdr := some v }, rest)
          else none
        | _ => none
    match rest with
    | [] => some o
    | .sym ',' :: more => buildOperands k o more
    | _ => none
  | _ + 1, _, _ => none

/-- The operands of a BUILD line, which may have none. -/
def buildLine (ts : List Token) : Option BuildOperands := if ts = [] then some {} else buildOperands (ts.length + 1) {} ts

/-- The line a mnemonic and its operand tokens write (R88, R89). -/
def parseOperands (mnemonic : List Char) (ts : List Token) : Option AsmLine :=
  if mnemonic = "CRC.CLR".toList then if ts = [] then some .crcClr else none
  else if mnemonic = "SUM.CLR".toList then if ts = [] then some .sumClr else none
  else if mnemonic = "CRC.BYTE".toList then
    match ts with
    | [.word b] => (number b).map .crcByte
    | _ => none
  else if mnemonic = "SUM.BYTE".toList then
    match ts with
    | [.word b] => (number b).map .sumByte
    | _ => none
  else if mnemonic = ".byte".toList then
    match ts with
    | [.word b] => (number b).map .rawByte
    | _ => none
  else if mnemonic = "FWD.DIST".toList then
    match ts with
    | [.word a, .sym ',', .word b] => do some (.fwdDist (← number a) (← number b))
    | _ => none
  else if mnemonic = "SUM.CALC".toList then
    match ts with
    | .word d :: .sym ',' :: .word s :: .sym ',' :: .word h :: .sym ',' :: rest => do
      some (.sumCalc (← number d) (← number s) (← number h) (← lastByteList rest))
    | _ => none
  else if mnemonic = "CRC.CALC".toList then (lastByteList ts).map .crcCalc
  else if mnemonic = "PARSE.CRC".toList then (lastByteList ts).map .parseCrc
  else if mnemonic = "PARSE.SIMPLE".toList then (lastByteList ts).map .parseSimple
  else if mnemonic = "CRC.STREAM".toList then (lastByteList ts).map .crcStream
  else if mnemonic = "SUM.STREAM".toList then (lastByteList ts).map .sumStream
  else if mnemonic = "FEED".toList then (feedOperands ts).map .feed
  else if mnemonic = "BUILD.SIMPLE".toList then
    (buildLine ts).map fun o => .buildSimple o.dst o.src o.hdr (o.data.getD [])
  else if mnemonic = "BUILD.CRC".toList then do
    let o ← buildLine ts
    if o.src = none then some (.buildCrc o.dst o.hdr (o.data.getD [])) else none
  else none

/-- The bytes of one line of text: none for a line that is no line of R88 or R89; no bytes for a blank or comment line. -/
def assembleLine (cs : List Char) : Option (List Byte) := do
  match ← lexLine cs [] with
  | [] => some []
  | .word mnemonic :: ts => (← parseOperands mnemonic ts).assemble
  | _ => none

/-- The lines of a text. -/
def textLines : List Char → List (List Char)
  | [] => [[]]
  | c :: cs =>
    match c == '\n', textLines cs with
    | true, ls => [] :: ls
    | false, l :: ls => (c :: l) :: ls
    | false, [] => [[c]]

/-- The command bytes of a text, one command per line (R88). -/
def assemble (text : String) : Option (List Byte) := ((textLines text.toList).mapM assembleLine).map List.flatten

end Sys2Proof.Machine
end

