-- ==== Sys2Proof/Safety.lean ====
section
/-!
DEFINITION. The terms claims use: the invariants of the state (10_state.md R27), what a legal response is (R32, R36, 60_exceptions.md
R210), which command may give which status and write which element (20_memory.md R58, 60_exceptions.md R217), running a list of
commands, and a device whose snapshots are fed (42_reconciler.md R178, R182).
-/

namespace Sys2Proof.Machine

/-! ### Invariants of the state -/

/-- R27: (a) uninitialized exactly when the history is empty; (b) when initialized, the newest entry's counter is `lastCounter`; (c) when
initialized, the history holds 1 to `HIST_N` entries. -/
abbrev State.inv (s : State) : Prop :=
  (s.initialized = false ↔ s.history = []) ∧
  (s.initialized = true → s.history.getLast?.map (·.counter) = some s.lastCounter) ∧
  (s.initialized = true → 1 ≤ s.history.length ∧ s.history.length ≤ Config.histN)

/-! ### Legal responses -/

/-- R31, R32: at most 255 data bytes, and the checksum is the function of the other fields. -/
abbrev Message.legal : Message → Prop
  | .crc d h x c => x.length ≤ Config.dataMax ∧ c = crc16 (crcFeed d h x)
  | .simple d s h x c => x.length ≤ Config.dataMax ∧ c = simpleChecksum d s h x

/-- R36: a loss counts 1 to 250 events. -/
abbrev Output.legal : Output → Prop
  | .event _ => True
  | .loss lostCount _ _ => 1 ≤ lostCount ∧ lostCount ≤ 250

/-- Whether an output item is a loss notification. -/
def Output.isLoss : Output → Bool
  | .event _ => false
  | .loss _ _ _ => true

/-- R61, R250: at most 5 events, and at most one loss, which is the first item. -/
abbrev itemsLegal (out : List Output) : Prop :=
  (out.filter (!·.isLoss)).length ≤ Config.bufferCapacity ∧ out.tail.all (!·.isLoss) = true ∧ ∀ o ∈ out, o.legal

/-- What a payload may be: a built message comes with its frame. -/
abbrev Payload.legal : Payload → Prop
  | .word _ => True
  | .byte _ => True
  | .built m frame => m.legal ∧ frame = encodeFrame m
  | .parsed m => m.legal
  | .items out => itemsLegal out

/-- The payload ranges of 60_exceptions.md R210 and R215, and why each error is given: a length that is wrong, two checksums that differ,
a mask that is not 0, an op byte that is undefined or a BUILD's. -/
abbrev Response.legal : Response → Prop
  | .ok p => p.legal
  | .framingTooShort actual => actual < 5
  | .framingLengthMismatch declared actual => 5 ≤ actual ∧ actual ≤ 65535 ∧ actual ≠ 5 + declared.toNat
  | .crcMismatch expected received => expected ≠ received
  | .simpleMismatch expected received => expected ≠ received
  | .buildError mask => mask ≠ 0
  | .illegalOperation op => Opcode.ofByte op = none ∨ op = Opcode.buildCrc.byte ∨ op = Opcode.buildSimple.byte

/-- A safe state: R27 holds, and every response given is legal. -/
abbrev State.safe (s : State) : Prop := s.inv ∧ ∀ r ∈ s.responses, r.legal

/-! ### What a command may do -/

/-- The statuses each command can give (60_exceptions.md R217). -/
def statusesOf : Opcode → List Status
  | .crcClr | .crcByte | .crcCalc | .sumClr | .sumByte | .sumCalc | .fwdDist | .feed => [.ok]
  | .buildCrc | .buildSimple => [.ok, .buildError, .illegalOperation]
  | .parseCrc | .parseSimple => [.ok, .framingTooShort, .framingLengthMismatch, .checksumMismatch]

/-- The five elements of 10_state.md R20 agree: the two states differ at most in their ports. -/
abbrev State.sameRecord (s t : State) : Prop :=
  t.crcAcc = s.crcAcc ∧ t.sumAcc = s.sumAcc ∧ t.initialized = s.initialized ∧ t.lastCounter = s.lastCounter ∧ t.history = s.history

/-- The undefined op bytes (30_encoding.md R83, its list of ranges). -/
abbrev UndefinedOpByte (op : Byte) : Prop :=
  op ≤ 0x0F ∨ (0x13 ≤ op ∧ op ≤ 0x1F) ∨ (0x23 ≤ op ∧ op ≤ 0x2F) ∨ (0x32 ≤ op ∧ op ≤ 0x3F) ∨ (0x42 ≤ op ∧ op ≤ 0x4F) ∨ 0x52 ≤ op

/-- The PARSE command of a variant (R78). -/
def parseCommand : Variant → List Byte → Instr
  | .crc, f => .parseCrc f
  | .simple, f => .parseSimple f

/-! ### Running commands -/

/-- Execute commands in order, stopping at the first fault or refusal (20_memory.md R60). -/
def execAll : List Instr → State → Host.Outcome State Fault Refusal
  | [], s => .next s
  | i :: is, s =>
    match exec i s with
    | .next t => execAll is t
    | .fault r => .fault r
    | .refused r => .refused r

/-- The command port's inputs for a list of commands, back to back (30_encoding.md R77). -/
def encodeInputs (is : List Instr) : List Input := (is.flatMap encode).map .byte

/-! ### A device and its snapshots -/

/-- `S` is the snapshot of a device that has recorded the events 1 to `n`, event `e` having the record `log e`: its counter is `n` mod 256
and `records[i]` is event `n - i`, the slots of events that have not happened holding anything (42_reconciler.md R178; I10). -/
def IsSnapshotOf (log : Nat → EventRecord) (n : Nat) (S : EventSnapshot) : Prop :=
  S.counter = BitVec.ofNat 8 n ∧ ∀ i, i < Config.bufferCapacity → i < n → S.records[i]? = some (log (n - i))

/-- The premise of R182: from a device that has recorded `n` events, the snapshots of the list are taken in order, each with the number
of events recorded by then, fewer than 256 events after the one before. -/
def SnapshotsInOrder (log : Nat → EventRecord) : Nat → List (Nat × EventSnapshot) → Prop
  | _, [] => True
  | n, (m, S) :: rest => n ≤ m ∧ m - n < 256 ∧ IsSnapshotOf log m S ∧ SnapshotsInOrder log m rest

/-- How many events a device has recorded at the last snapshot of a list, starting from `n`. -/
def lastCount (n : Nat) (snaps : List (Nat × EventSnapshot)) : Nat := (snaps.getLast?.map Prod.fst).getD n

/-- The events an output item accounts for, in order: an event its record, a loss as many lost events as it counts. -/
def Output.accounts : Output → List (Option EventRecord)
  | .event r => [some r]
  | .loss lostCount _ _ => List.replicate lostCount none

/-- The events a list of responses accounts for. -/
def accounted (rs : List Response) : List (Option EventRecord) :=
  rs.flatMap fun r =>
    match r with
    | .ok (.items out) => out.flatMap Output.accounts
    | _ => []

end Sys2Proof.Machine
end

