-- ==== Sys2Proof/Certificates/Slice0/Obligations.lean ====
section
/-!
DEFINITION. The statements for the provers. Each cites the rule of spec/ it formalises. A statement writes the state after a command as
an update of the state before it, so it says at once what the command changes and that it changes nothing else. The block has no
memory (20_memory.md R50), so no statement speaks of one.
-/

open Sys2Proof Sys2Proof.Machine

/-! ### Encoding -/

/-- Decoding the encoding of a well-formed command, whatever follows it, gives the command and its length. -/
def Obligations.DecodeOfEncode : Prop :=
  ∀ (i : Instr) (rest : List Byte), i.wellFormed = true → decode (encode i ++ rest) = .command i (encode i).length

/-- A decoded command is well-formed, and its encoding is exactly the bytes it was decoded from: no byte is dropped (30_encoding.md R79,
R86). -/
def Obligations.EncodeOfDecode : Prop :=
  ∀ (bs : List Byte) (i : Instr) (n : Nat), decode bs = .command i n →
    i.wellFormed = true ∧ n ≤ bs.length ∧ encode i = bs.take n

/-- R83: which op bytes are undefined, and what the block does with one. -/
def Obligations.UndefinedOpByteIsIllegalOperation : Prop :=
  (∀ (s : State) (op : Byte) (rest : List Input), UndefinedOpByte op → s.inputs = .byte op :: rest →
    step s = .next { s with inputs := rest, responses := s.responses ++ [.illegalOperation op] }) ∧
  (∀ (op : Byte) (bs : List Byte), decode (op :: bs) = .undefinedOp op ↔ UndefinedOpByte op) ∧
  ((List.range 256).filter fun k => decide (UndefinedOpByte (BitVec.ofNat 8 k))).length = 244

/-- R85: a command's length is known from its op byte and length field, and the decoder answers a command or an undefined op byte
exactly when that many bytes are there. The spec marks R85 ("A decoder finds a command's length from its op byte alone") as its own
inference, so this cites what it rests on. -/
def Obligations.CommandLengthIsDecodedLength : Prop :=
  (∀ (bs : List Byte) (i : Instr) (n : Nat), decode bs = .command i n → commandLength bs = some n) ∧
  (∀ (bs : List Byte), decode bs = .incomplete ↔ ∀ n, commandLength bs = some n → bs.length < n)

/-- Words written out from the spec's encodings decode to the commands they stand for (30_encoding.md R79 to R82; programs P1 to P5). -/
def Obligations.SampleWordsDecode : Prop :=
  decode [0b00010000] = .command .crcClr 1 ∧
  decode [0b00010001, 0b00101000] = .command (.crcByte 40) 2 ∧
  decode [0x12, 0x03, 0x00, 0x28, 0x00, 0x01] = .command (.crcCalc [40, 0, 1]) 6 ∧
  decode [0b00100001, 0xFE] = .command (.sumByte 254) 2 ∧
  decode [0x22, 0x01, 0x02, 0x00, 0x00] = .command (.sumCalc 1 2 0 []) 5 ∧
  decode [0x30, 0x05, 0x02, 0x00, 0xE7, 0x02, 0xFF, 0x00] = .command (.buildCrc 5 2 0 231 [255, 0]) 8 ∧
  decode [0b00110001, 0b00000111, 0x02, 0x01, 0xFE, 0x00] = .command (.buildSimple 7 2 1 254 []) 6 ∧
  decode [0x40, 0x05, 0x00, 0x28, 0x00, 0x46, 0x01, 0x3F] = .command (.parseCrc [0x28, 0x00, 0x46, 0x01, 0x3F]) 8 ∧
  decode [0x50, 0x09, 0x09, 0x00, 0x08, 0x00, 0x07, 0x00, 0x06, 0x00, 0x05, 0x01] =
    .command (.feed ⟨9, ⟨9, 0⟩, ⟨8, 0⟩, ⟨7, 0⟩, ⟨6, 0⟩, ⟨5, 1⟩⟩) 12 ∧
  decode [0b01010001, 0xFA, 0x03] = .command (.fwdDist 250 3) 3 ∧
  decode [0x12, 0x02, 0x00, 0x12] = .incomplete ∧ decode [0x77] = .undefinedOp 0x77

/-- R78: `op[7:4]` names the unit, `op[3:0]` the function in it, and in units 3 and 4 `op[0]` selects the variant. -/
def Obligations.OpByteNamesUnitAndVariant : Prop :=
  (∀ o : Opcode, opUnit o.byte =
    match o with
    | .crcClr | .crcByte | .crcCalc => 1
    | .sumClr | .sumByte | .sumCalc => 2
    | .buildCrc | .buildSimple => 3
    | .parseCrc | .parseSimple => 4
    | .feed | .fwdDist => 5) ∧
  (∀ o o' : Opcode, opUnit o.byte = opUnit o'.byte → opFunction o.byte = opFunction o'.byte → o = o') ∧
  opVariant Opcode.buildCrc.byte = .crc ∧ opVariant Opcode.buildSimple.byte = .simple ∧
  (∀ (f : List Byte) (v : Variant), opVariant (parseCommand v f).opcode.byte = v)

/-! ### The step, the port and reset -/

/-- When the bytes that have arrived begin with a command, a step takes that command's bytes from the port and executes it: nothing else
is added around `exec`. -/
def Obligations.StepRunsDecodedCommand : Prop :=
  ∀ (s : State) (i : Instr) (n : Nat), decode (arrived s.inputs) = .command i n → i.wellFormed = true →
    step s = exec i { s with inputs := s.inputs.drop n }

/-- Commands given back to back on the port run one a step, in order, each on the state the one before it left, whatever follows them
(20_memory.md R60, 30_encoding.md R77). -/
def Obligations.PortRunsCommandsInOrder : Prop :=
  ∀ (is : List Instr) (s : State) (rest : List Input), (∀ i ∈ is, i.wellFormed = true) →
    Host.Core.run Sys2Proof.core is.length { s with inputs := encodeInputs is ++ rest } = execAll is { s with inputs := rest }

/-- R87: on some but not all bytes of a command the block takes no step; when the remaining bytes have arrived, the command runs; and a
command list whose last command is incomplete does not run to an end. That the stuck
state is a named fault of the step is the model's choice (log entry 12). -/
def Obligations.IncompleteCommandIsStuck : Prop :=
  ∀ (s : State) (i : Instr) (k : Nat), i.wellFormed = true → 0 < k → k < (encode i).length →
    s.inputs = ((encode i).take k).map .byte →
    step s = .fault .commandIncomplete ∧
    step (s.receive (((encode i).drop k).map .byte)) = exec i { s with inputs := [] } ∧
    ∀ is : List Instr, (∀ j ∈ is, j.wellFormed = true) →
      Host.Core.run Sys2Proof.core (is.length + 1) { s with inputs := encodeInputs is ++ s.inputs } = .fault .commandIncomplete

/-- R241: a reset that arrives while a command is incomplete, or between commands (no byte of one), discards the bytes of that command
and resets every element. The responses already given stand: that clause is the model's choice (log entry 4). -/
def Obligations.ResetInputDiscardsIncompleteCommand : Prop :=
  ∀ (s : State) (i : Instr) (k : Nat) (rest : List Input), i.wellFormed = true → k < (encode i).length →
    s.inputs = ((encode i).take k).map .byte ++ .reset :: rest →
    step s = .next
      { crcAcc := 0x0000, sumAcc := 0x00, initialized := false, lastCounter := 0x00, history := [], inputs := rest,
        responses := s.responses }

/-- R240: the value of every element after reset, at the start and whenever the reset input acts. -/
def Obligations.ResetValues : Prop :=
  (State.reset.crcAcc = 0x0000 ∧ State.reset.sumAcc = 0x00 ∧ State.reset.initialized = false ∧ State.reset.lastCounter = 0x00 ∧
    State.reset.history = []) ∧
  ∀ (s : State) (rest : List Input), State.reset.sameRecord (s.applyReset rest)

/-- The block stops only to wait for bytes: no step is refused, and a step faults exactly when no complete command and no reset has
arrived (30_encoding.md R87, 60_exceptions.md R211). The
faults' names are the model's choice (log entry 12). -/
def Obligations.StepStopsOnlyToWait : Prop :=
  ∀ s : State, (∀ r, step s ≠ .refused r) ∧
    ((∃ f, step s = .fault f) ↔ decode (arrived s.inputs) = .incomplete ∧ Input.reset ∉ s.inputs) ∧
    (step s = .fault .portEmpty ↔ s.inputs = [])

/-- Every command completes, on every state and with every operand: it gives exactly one response, after those already given, and leaves
the command port alone (30_encoding.md R77, 20_memory.md R57). -/
def Obligations.EveryCommandGivesOneResponse : Prop :=
  ∀ (i : Instr) (s : State), ∃ (t : State) (r : Response), exec i s = .next t ∧
    t.responses = s.responses ++ [r] ∧ t.inputs = s.inputs

/-! ### The CRC generator -/

/-- R102: CRC.CLR. -/
def Obligations.CrcClrClearsRegister : Prop :=
  encode .crcClr = [0x10] ∧
  ∀ s : State, exec .crcClr s = .next { s with crcAcc := 0x0000, responses := s.responses ++ [.ok (.word 0x0000)] }

/-- R103: CRC.BYTE shifts one byte into the register and answers its new value; nothing else changes. -/
def Obligations.CrcByteShiftsByteIn : Prop :=
  (∀ b : Byte, encode (.crcByte b) = [0x11, b]) ∧
  (∀ (s : State) (b : Byte), exec (.crcByte b) s = .next
    { s with crcAcc := crcStep s.crcAcc b, responses := s.responses ++ [.ok (.word (crcStep s.crcAcc b))] }) ∧
  crcStep 0x0000 0x00 = 0x0000 ∧ crcStep 0xFFFF 0xFF = 0xFF00 ∧ crcStep 0x0000 0x01 = 0x1021

/-- R104: CRC.CALC answers the CRC of its operand and changes nothing else, `crc_acc` included. -/
def Obligations.CrcCalcAnswersCrc : Prop :=
  (∀ p : List Byte, p.length ≤ 65535 →
    encode (.crcCalc p) = [0x12, BitVec.ofNat 8 (p.length % 256), BitVec.ofNat 8 (p.length / 256)] ++ p) ∧
  (∀ (s : State) (p : List Byte), exec (.crcCalc p) s = .next { s with responses := s.responses ++ [.ok (.word (crc16 p))] }) ∧
  crc16 [] = 0x0000 ∧ (∀ n, crc16 (List.replicate n 0) = 0x0000) ∧
  (∀ p, crc16 (p ++ [(crc16 p).extractLsb' 8 8, (crc16 p).extractLsb' 0 8]) = 0x0000) ∧ crc16 [40, 0, 1] = 0x3F46

/-- R100: `crcStep` is the spec's loop, read over the natural numbers (00_scope.md R11), and gives what the byte-wise and the table-driven
forms give for every register value and byte. -/
def Obligations.CrcStepIsTheBitLoop : Prop :=
  ∀ (crc : Word16) (b : Byte),
    (crcStep crc b).toNat =
      Nat.repeat (fun c => if c / 2 ^ 15 % 2 = 1 then (c * 2 % 2 ^ 16) ^^^ 0x1021 else c * 2 % 2 ^ 16) 8
        (crc.toNat ^^^ (b.toNat * 2 ^ 8)) ∧
    crcStep crc b = (crc <<< 8) ^^^ crcStep 0x0000 (crc.extractLsb' 8 8 ^^^ b) ∧
    crcStep crc b =
      (let x := crc.extractLsb' 8 8 ^^^ b
       let y := (x ^^^ (x >>> 4)).setWidth 16
       (crc <<< 8) ^^^ (y <<< 12) ^^^ (y <<< 5) ^^^ y)

/-- R101: `crc16` starts at 0x0000 and takes the bytes from index 0 upward, with no final XOR; the source's two vectors hold. -/
def Obligations.CrcTakesBytesInOrder : Prop :=
  crc16 [] = 0x0000 ∧ (∀ (bs : List Byte) (b : Byte), crc16 (bs ++ [b]) = crcStep (crc16 bs) b) ∧
  crc16 [40, 0, 1] = 0x3F46 ∧ crc16 [1, 0, 0] = 0x3730

/-- R105: linearity, leading zeros, residue, and detection of every single-byte change. The spec marks R105 ("Laws of `crc16`") as its
own inference, so this cites what it rests on. -/
def Obligations.CrcLaws : Prop :=
  (∀ a b : List Byte, a.length = b.length → crc16 (List.zipWith (· ^^^ ·) a b) = crc16 a ^^^ crc16 b) ∧
  (∀ (k : Nat) (a : List Byte), crc16 (List.replicate k 0 ++ a) = crc16 a) ∧
  (∀ a : List Byte, crc16 (a ++ [(crc16 a).extractLsb' 8 8, (crc16 a).extractLsb' 0 8]) = 0x0000) ∧
  (∀ (a : List Byte) (i : Nat) (b : Byte), i < a.length → a[i]? ≠ some b → crc16 (a.set i b) ≠ crc16 a)

/-! ### The sum encoder -/

/-- R106, R107: the checksum is the two's-complement negation of the sum of the fields mod 256, so the whole message, checksum included,
sums to 0 mod 256. -/
def Obligations.SimpleChecksumNegatesTheSum : Prop :=
  (∀ x : Nat, (neg8 x).toNat = (256 - x % 256) % 256 ∧ (x + (neg8 x).toNat) % 256 = 0) ∧ neg8 0 = 0 ∧
  (∀ (d s h : Byte) (x : List Byte),
    simpleChecksum d s h x = neg8 (d.toNat + s.toNat + h.toNat + x.length + (x.map BitVec.toNat).sum) ∧
    (d.toNat + s.toNat + h.toNat + x.length + (x.map BitVec.toNat).sum + (simpleChecksum d s h x).toNat) % 256 = 0) ∧
  simpleChecksum 1 2 0 [] = 253

/-- R108: SUM.CLR. -/
def Obligations.SumClrClearsSum : Prop :=
  encode .sumClr = [0x20] ∧
  ∀ s : State, exec .sumClr s = .next { s with sumAcc := 0x00, responses := s.responses ++ [.ok (.byte 0x00)] }

/-- R109: SUM.BYTE adds a byte mod 256 and answers the check byte; the fields of a message, streamed in any order after SUM.CLR, end
with its simple checksum. The spec marks R109's last sentence ("Because addition commutes, the bytes can be added in any order") as its
own inference, so this cites what it rests on. -/
def Obligations.SumByteAddsInAnyOrder : Prop :=
  (∀ b : Byte, encode (.sumByte b) = [0x21, b]) ∧
  (∀ (s : State) (b v : Byte), v = BitVec.ofNat 8 ((s.sumAcc.toNat + b.toNat) % 256) →
    exec (.sumByte b) s = .next { s with sumAcc := v, responses := s.responses ++ [.ok (.byte (neg8 v.toNat))] }) ∧
  (∀ (s : State) (d src h : Byte) (x order : List Byte), x.length ≤ 255 →
    order.Perm ([d, BitVec.ofNat 8 x.length, src, h] ++ x) →
    ∃ t, execAll (.sumClr :: order.map .sumByte) s = .next t ∧
      t.responses.getLast? = some (.ok (.byte (simpleChecksum d src h x))))

/-- R110: SUM.CALC answers the simple checksum of its fields, a zero source included, and changes nothing else. -/
def Obligations.SumCalcAnswersChecksum : Prop :=
  (∀ (d src h : Byte) (x : List Byte), x.length ≤ 255 →
    encode (.sumCalc d src h x) = [0x22, d, src, h, BitVec.ofNat 8 x.length] ++ x) ∧
  (∀ (s : State) (d src h : Byte) (x : List Byte), exec (.sumCalc d src h x) s = .next
    { s with responses := s.responses ++ [.ok (.byte (simpleChecksum d src h x))] }) ∧
  simpleChecksum 0 0 0 [] = 0 ∧ simpleChecksum 255 255 255 [255] = 3 ∧ simpleChecksum 1 1 1 (List.replicate 253 1) = 3 ∧
  encode (.sumCalc 1 2 0 []) = [0x22, 0x01, 0x02, 0x00, 0x00] ∧ simpleChecksum 1 2 0 [] = 253

/-- R89: the streaming pseudo-instructions. CRC.STREAM leaves the CRC of its bytes in `crc_acc`, SUM.STREAM ends with the check byte of
their sum; each changes its own accumulator only. The spec marks R89's last sentence ("After `CRC.STREAM bs`, `crc_acc = crc16(bs)`") as
its own inference, so this cites what it rests on. -/
def Obligations.StreamsComputeTheChecksums : Prop :=
  (∀ bs : List Byte, (AsmLine.crcStream bs).commands = .crcClr :: bs.map .crcByte) ∧
  (∀ bs : List Byte, (AsmLine.sumStream bs).commands = .sumClr :: bs.map .sumByte) ∧
  (∀ (bs : List Byte) (s : State), ∃ rs : List Response, rs.length = bs.length + 1 ∧
    execAll (AsmLine.crcStream bs).commands s = .next { s with crcAcc := crc16 bs, responses := s.responses ++ rs }) ∧
  (∀ (bs : List Byte) (s : State), ∃ rs : List Response, rs.length = bs.length + 1 ∧
    rs.getLast? = some (.ok (.byte (neg8 (bs.map BitVec.toNat).sum))) ∧
    execAll (AsmLine.sumStream bs).commands s = .next
      { s with sumAcc := BitVec.ofNat 8 (bs.map BitVec.toNat).sum, responses := s.responses ++ rs })

/-! ### The framer -/

/-- R134: each bit of the build mask, in both variants; at most one of bits 1 and 3 is set. -/
def Obligations.BuildMaskReportsEveryFailedCheck : Prop :=
  ∀ (v : Variant) (dv : Bool) (d : Byte) (sv : Bool) (src : Byte) (hv : Bool),
    (buildMask v dv d sv src hv).getLsbD 0 = !dv ∧
    (buildMask v dv d sv src hv).getLsbD 2 = !hv ∧
    (buildMask v dv d sv src hv).getLsbD 1 = (decide (v = .simple) && !sv) ∧
    (buildMask v dv d sv src hv).getLsbD 3 = (decide (v = .simple) && sv && decide (src = 0))

/-- R135: BUILD.CRC. Reserved flag bits first, then the mask, then the message and its frame; SV and the source byte are ignored. -/
def Obligations.BuildCrcAnswers : Prop :=
  ∀ (s : State) (flags d src h : Byte) (x : List Byte), x.length ≤ 255 →
    encode (.buildCrc flags d src h x) = [0x30, flags, d, src, h, BitVec.ofNat 8 x.length] ++ x ∧
    (let n : Byte := BitVec.ofNat 8 x.length
     let mask := buildMask .crc (flags.getLsbD 0) d (flags.getLsbD 1) src (flags.getLsbD 2)
     let c := crc16 ([d, n, h] ++ x)
     exec (.buildCrc flags d src h x) s = .next { s with responses := s.responses ++
       [if flags.extractLsb' 3 5 ≠ 0 then .illegalOperation 0x30
        else if mask ≠ 0 then .buildError mask
        else .ok (.built (.crc d h x c) ([d, n, c.extractLsb' 0 8, h] ++ x ++ [c.extractLsb' 8 8]))] } ∧
     (mask = 0 ↔ flags.getLsbD 0 = true ∧ flags.getLsbD 2 = true) ∧
     ([d, n, c.extractLsb' 0 8, h] ++ x ++ [c.extractLsb' 8 8]).length = 5 + x.length) ∧
    ∀ src' : Byte, exec (.buildCrc (flags ^^^ 0b10) d src' h x) s = exec (.buildCrc flags d src h x) s

/-- R136: BUILD.SIMPLE. Reserved flag bits first, then the mask, then the message and its frame. -/
def Obligations.BuildSimpleAnswers : Prop :=
  ∀ (s : State) (flags d src h : Byte) (x : List Byte), x.length ≤ 255 →
    encode (.buildSimple flags d src h x) = [0x31, flags, d, src, h, BitVec.ofNat 8 x.length] ++ x ∧
    (let n : Byte := BitVec.ofNat 8 x.length
     let mask := buildMask .simple (flags.getLsbD 0) d (flags.getLsbD 1) src (flags.getLsbD 2)
     let c := simpleChecksum d src h x
     exec (.buildSimple flags d src h x) s = .next { s with responses := s.responses ++
       [if flags.extractLsb' 3 5 ≠ 0 then .illegalOperation 0x31
        else if mask ≠ 0 then .buildError mask
        else .ok (.built (.simple d src h x c) ([d, n, src, h] ++ x ++ [c]))] } ∧
     (mask = 0 ↔ flags.getLsbD 0 = true ∧ flags.getLsbD 1 = true ∧ flags.getLsbD 2 = true ∧ src ≠ 0) ∧
     (flags.getLsbD 0 = true → flags.getLsbD 1 = true → flags.getLsbD 2 = true → src = 0 → mask = 0b1000)) ∧
    exec (.buildSimple 0 d src h x) s = .next { s with responses := s.responses ++ [.buildError 0b0111] }

/-- Where the two BUILD commands build: with no reserved flag bit set, every field they need set and, for SIMPLE, a non-zero source, each
answers the message of its fields and its frame (41_framing.md R130 to R133). -/
def Obligations.BuildCompletesWithItsFieldsSet : Prop :=
  ∀ (s : State) (flags d src h : Byte) (x : List Byte), x.length ≤ 255 → flags &&& 0b11111000 = 0 → flags &&& 0b101 = 0b101 →
    exec (.buildCrc flags d src h x) s = .next { s with responses := s.responses ++
      [.ok (.built (makeCrc d h x) (encodeFrame (makeCrc d h x)))] } ∧
    (flags &&& 0b10 = 0b10 → src ≠ 0 → exec (.buildSimple flags d src h x) s = .next { s with responses := s.responses ++
      [.ok (.built (makeSimple d src h x) (encodeFrame (makeSimple d src h x)))] })

/-- R84: a BUILD command with a reserved flag bit set is taken from the port whole, answers ILLEGAL_OPERATION whatever its fields, and
writes nothing. -/
def Obligations.ReservedFlagBitsAreIllegalOperation : Prop :=
  ∀ (s : State) (op flags d src h n : Byte) (x : List Byte) (rest : List Input), op = 0x30 ∨ op = 0x31 →
    8 ≤ flags → n.toNat = x.length → s.inputs = ([op, flags, d, src, h, n] ++ x).map .byte ++ rest →
    step s = .next { s with inputs := rest, responses := s.responses ++ [.illegalOperation op] }

/-- R70, R71: what stands at every index of a frame of either variant. -/
def Obligations.FrameLayouts : Prop :=
  ∀ (d src h : Byte) (x : List Byte), x.length ≤ 255 →
    (let f := encodeFrame (makeCrc d h x)
     let c := crc16 (crcFeed d h x)
     f.length = 5 + x.length ∧ f[0]? = some d ∧ f[1]?.map BitVec.toNat = some x.length ∧ f[2]? = some (c.extractLsb' 0 8) ∧
     f[3]? = some h ∧ (∀ j, j < x.length → f[4 + j]? = x[j]?) ∧ f[4 + x.length]? = some (c.extractLsb' 8 8)) ∧
    (let f := encodeFrame (makeSimple d src h x)
     f.length = 5 + x.length ∧ f[0]? = some d ∧ f[1]?.map BitVec.toNat = some x.length ∧ f[2]? = some src ∧ f[3]? = some h ∧
     (∀ j, j < x.length → f[4 + j]? = x[j]?) ∧ f[4 + x.length]? = some (simpleChecksum d src h x))

/-- R72: a frame is 5 to 260 bytes long and its byte 1 is its length less 5; no other byte sequence is a frame, so none is parsed as
one. The spec marks R72 ("Every frame of either variant is `5 + dataLength` bytes long") as its own inference, so this cites what it
rests on. -/
def Obligations.OnlyFramesOfTheirDeclaredLengthParse : Prop :=
  (∀ (v : Variant) (f : List Byte) (s : State) (m : Message),
    exec (parseCommand v f) s = .next { s with responses := s.responses ++ [.ok (.parsed m)] } →
    5 ≤ f.length ∧ f.length ≤ 260 ∧ f[1]?.map BitVec.toNat = some (f.length - 5)) ∧
  (∀ (d src h : Byte) (x : List Byte) (f : List Byte), x.length ≤ 255 →
    f = encodeFrame (makeCrc d h x) ∨ f = encodeFrame (makeSimple d src h x) →
    5 ≤ f.length ∧ f.length ≤ 260 ∧ f[1]?.map BitVec.toNat = some (f.length - 5))

/-- R53: the two halves of a CRC, where they stand in a frame, and that a received CRC is put together from them. -/
def Obligations.CrcBytesSplitAndJoin : Prop :=
  (∀ c : Word16, (crcMSB c).toNat = c.toNat / 256 ∧ (crcLSB c).toNat = c.toNat % 256 ∧
    joinCrc (crcMSB c) (crcLSB c) = c) ∧
  (∀ msb lsb : Byte, (joinCrc msb lsb).toNat = msb.toNat * 256 + lsb.toNat) ∧
  (∀ (d h : Byte) (x : List Byte) (c : Word16),
    (encodeFrame (.crc d h x c))[2]? = some (crcLSB c) ∧ (encodeFrame (.crc d h x c)).getLast? = some (crcMSB c))

/-- R111: every SIMPLE frame BUILD.SIMPLE answers sums to 0 mod 256, and no change of one byte keeps that. The spec marks R111 ("Law of
the simple checksum") as its own inference, so this cites what it rests on. -/
def Obligations.SimpleFramesSumToZero : Prop :=
  ∀ (s : State) (flags d src h : Byte) (x : List Byte) (m : Message) (f : List Byte), x.length ≤ 255 →
    exec (.buildSimple flags d src h x) s = .next { s with responses := s.responses ++ [.ok (.built m f)] } →
    (f.map BitVec.toNat).sum % 256 = 0 ∧
    ∀ (i : Nat) (b : Byte), i < f.length → f[i]? ≠ some b → ((f.set i b).map BitVec.toNat).sum % 256 ≠ 0

/-! ### The parser -/

/-- R137: input shorter than 5 bytes, the empty input included. -/
def Obligations.ParseRejectsShortInput : Prop :=
  ∀ (v : Variant) (f : List Byte) (s : State), f.length < 5 →
    exec (parseCommand v f) s = .next { s with responses := s.responses ++ [.framingTooShort f.length] }

/-- R138: input whose length differs from 5 + byte 1; every input longer than 260 bytes is such. -/
def Obligations.ParseRejectsLengthMismatch : Prop :=
  (∀ (v : Variant) (f : List Byte) (n : Byte) (s : State), 5 ≤ f.length → f[1]? = some n → f.length ≠ 5 + n.toNat →
    exec (parseCommand v f) s = .next { s with responses := s.responses ++ [.framingLengthMismatch n f.length] }) ∧
  (∀ (v : Variant) (f : List Byte) (s : State), 260 < f.length → ∃ n : Byte, f[1]? = some n ∧
    exec (parseCommand v f) s = .next { s with responses := s.responses ++ [.framingLengthMismatch n f.length] })

/-- R139, R141: a CRC-variant input of the declared length is accepted exactly when the CRC of its feed is the CRC received. -/
def Obligations.ParseCrcComparesChecksums : Prop :=
  ∀ (s : State) (d n lsb h msb : Byte) (x : List Byte), n.toNat = x.length →
    (let expected := crc16 ([d, n, h] ++ x)
     let received : Word16 := BitVec.ofNat 16 (msb.toNat * 256 + lsb.toNat)
     exec (.parseCrc ([d, n, lsb, h] ++ x ++ [msb])) s = .next { s with responses := s.responses ++
       [if expected ≠ received then .crcMismatch expected received else .ok (.parsed (.crc d h x expected))] })

/-- R140, R142: a SIMPLE-variant input of the declared length is accepted exactly when its checksum is the one received, its source zero
or not. -/
def Obligations.ParseSimpleComparesChecksums : Prop :=
  ∀ (s : State) (d n src h received : Byte) (x : List Byte), n.toNat = x.length →
    (let expected := simpleChecksum d src h x
     exec (.parseSimple ([d, n, src, h] ++ x ++ [received])) s = .next { s with responses := s.responses ++
       [if expected ≠ received then .simpleMismatch expected received else .ok (.parsed (.simple d src h x expected))] })

/-- Where the two PARSE commands complete with a message: an input of the length it declares, whose transmitted checksum is the one its
fields have (41_framing.md R141, R142). -/
def Obligations.ParseCompletesOnValidFrames : Prop :=
  ∀ (s : State) (d n src h : Byte) (x : List Byte), n.toNat = x.length →
    (let c := crc16 ([d, n, h] ++ x)
     exec (.parseCrc ([d, n, c.extractLsb' 0 8, h] ++ x ++ [c.extractLsb' 8 8])) s =
       .next { s with responses := s.responses ++ [.ok (.parsed (.crc d h x c))] }) ∧
    exec (.parseSimple ([d, n, src, h] ++ x ++ [simpleChecksum d src h x])) s =
      .next { s with responses := s.responses ++ [.ok (.parsed (.simple d src h x (simpleChecksum d src h x)))] }

/-- R145: parsing a built frame with its own variant gives back the message. The spec marks R145 ("Round trip") as its own inference, so
this cites what it rests on. -/
def Obligations.ParseOfBuildRoundTrip : Prop :=
  ∀ (s : State) (flags d src h : Byte) (x : List Byte), x.length ≤ 255 → flags.extractLsb' 3 5 = 0 →
    flags.getLsbD 0 = true → flags.getLsbD 2 = true →
    (∃ (m : Message) (f : List Byte) (t : State), t = { s with responses := s.responses ++ [.ok (.built m f)] } ∧
      exec (.buildCrc flags d src h x) s = .next t ∧
      exec (.parseCrc f) t = .next { t with responses := t.responses ++ [.ok (.parsed m)] }) ∧
    (flags.getLsbD 1 = true → src ≠ 0 →
      ∃ (m : Message) (f : List Byte) (t : State), t = { s with responses := s.responses ++ [.ok (.built m f)] } ∧
        exec (.buildSimple flags d src h x) s = .next t ∧
        exec (.parseSimple f) t = .next { t with responses := t.responses ++ [.ok (.parsed m)] })

/-- R146: a valid frame with one byte changed is never accepted: FRAMING_LENGTH_MISMATCH for byte 1, CHECKSUM_MISMATCH for any other
(90_conflicts.md C2). The spec marks R146 ("Single-byte corruption") as its own inference, so this cites what it rests on. -/
def Obligations.SingleByteChangeIsDetected : Prop :=
  ∀ (v : Variant) (f : List Byte) (s : State) (m : Message) (i : Nat) (b : Byte),
    exec (parseCommand v f) s = .next { s with responses := s.responses ++ [.ok (.parsed m)] } →
    i < f.length → f[i]? ≠ some b →
    ∃ r : Response, exec (parseCommand v (f.set i b)) s = .next { s with responses := s.responses ++ [r] } ∧
      if i = 1 then r = .framingLengthMismatch b f.length else r.status = .checksumMismatch

/-- R147: a frame of one variant parsed as the other passes the framing checks: it is accepted or fails the checksum comparison; the
spec's example. The spec marks R147 ("Parsing with the wrong variant") as its own inference, so this cites what it rests on. -/
def Obligations.WrongVariantFailsOnlyTheChecksum : Prop :=
  (∀ (v w : Variant) (f : List Byte) (s : State) (m : Message),
    exec (parseCommand v f) s = .next { s with responses := s.responses ++ [.ok (.parsed m)] } →
    ∃ r : Response, exec (parseCommand w f) s = .next { s with responses := s.responses ++ [r] } ∧
      (r.status = .ok ∨ r.status = .checksumMismatch)) ∧
  (∀ s : State, exec (.parseSimple [0x02, 0x02, 0xB5, 0xE7, 0xFF, 0x00, 0x8F]) s =
    .next { s with responses := s.responses ++ [.simpleMismatch 0x61 0x8F] })

/-! ### Errors -/

/-- R211: a command that completes with a status other than OK has changed nothing: the state after it is the state before it, with the
response added; only a BUILD, a PARSE or an undefined op byte completes so. -/
def Obligations.ErrorsChangeNothing : Prop :=
  (∀ (i : Instr) (s t : State) (r : Response), exec i s = .next t → t.responses = s.responses ++ [r] → r.status ≠ .ok →
    t = { s with responses := s.responses ++ [r] } ∧ i.opcode ∈ [.buildCrc, .buildSimple, .parseCrc, .parseSimple]) ∧
  (∀ (s : State) (op : Byte), decode (arrived s.inputs) = .undefinedOp op →
    step s = .next { s with inputs := s.inputs.drop 1, responses := s.responses ++ [.illegalOperation op] })

/-- R217: the statuses each command can give, and that it can give each of them; BUILD.CRC's mask has bits 0 and 2 only. The spec marks
R217 ("Which commands can raise which status") as its own inference, so this cites what it rests on. -/
def Obligations.StatusesOfEachCommand : Prop :=
  (∀ (i : Instr) (s t : State) (r : Response), exec i s = .next t → t.responses = s.responses ++ [r] →
    r.status ∈ statusesOf i.opcode ∧
    (i.opcode = .buildCrc → ∀ mask, r = .buildError mask → mask ≠ 0 ∧ mask &&& 0b1010 = 0) ∧
    (i.opcode = .buildSimple → ∀ mask, r = .buildError mask → mask ≠ 0)) ∧
  (∀ (o : Opcode) (st : Status), st ∈ statusesOf o → ∃ i : Instr, i.wellFormed = true ∧ i.opcode = o ∧
    ∀ s : State, ∃ (t : State) (r : Response), exec i s = .next t ∧ t.responses = s.responses ++ [r] ∧ r.status = st) ∧
  (∀ (s : State) (op : Byte), decode (arrived s.inputs) = .undefinedOp op →
    ∃ t, step s = .next t ∧ t.responses.getLast?.map Response.status = some .illegalOperation)

/-- R210: the codes of the six statuses. -/
def Obligations.StatusCodes : Prop :=
  Status.ok.code = 0x00 ∧ Status.framingTooShort.code = 0x01 ∧ Status.framingLengthMismatch.code = 0x02 ∧
  Status.checksumMismatch.code = 0x03 ∧ Status.buildError.code = 0x04 ∧ Status.illegalOperation.code = 0x05

/-! ### Invariants -/

/-- R27: every step, and every command, keeps the three invariants of the reconciler. The spec marks R27 ("Invariants that every command
preserves") as its own inference, so this cites what it rests on. -/
def Obligations.StepKeepsReconcilerInvariants : Prop :=
  (∀ (s t : State), s.inv → step s = .next t → t.inv) ∧
  (∀ (i : Instr) (s t : State), s.inv → exec i s = .next t → t.inv)

/-- Every step keeps every response legal: error payloads in the ranges of R210, checksums of messages the function of their fields
(R32), built frames the frames of their messages, losses of 1 to 250 events before at most 5 events (R36, R61, R250). -/
def Obligations.StepKeepsResponsesLegal : Prop :=
  ∀ (s t : State), (∀ r ∈ s.responses, r.legal) → step s = .next t → ∀ r ∈ t.responses, r.legal

/-- Both invariants hold at reset. The spec marks R27 ("Invariants that every command preserves") as its own inference, so this cites
what it rests on. -/
def Obligations.ResetIsSafe : Prop := State.reset.safe

/-! ### The reconciler -/

/-- R170, R171: the forward distance, and FWD.DIST, which answers it and changes nothing else. -/
def Obligations.FwdDistAnswersForwardDistance : Prop :=
  (∀ a b : Byte, (fwdDist a b).toNat = (b.toNat + 256 - a.toNat) % 256) ∧
  (∀ a b : Byte, encode (.fwdDist a b) = [0x51, a, b]) ∧
  (∀ (s : State) (a b : Byte), exec (.fwdDist a b) s = .next { s with responses := s.responses ++ [.ok (.byte (fwdDist a b))] }) ∧
  (∀ a : Byte, fwdDist a a = 0) ∧ fwdDist 250 3 = 9 ∧ fwdDist 3 250 = 247 ∧ fwdDist 0 255 = 255 ∧ fwdDist 255 0 = 1

/-- R177: the seeding FEED takes the snapshot and answers no item, for every counter. -/
def Obligations.FirstFeedSeeds : Prop :=
  ∀ (s : State) (S : EventSnapshot), s.initialized = false →
    exec (.feed S) s = .next { s with initialized := true, lastCounter := S.counter, history := [S], responses :=
      s.responses ++ [.ok (.items [])] }

/-- R173: a FEED whose counter is `lastCounter` answers no item and writes nothing, whatever its records. -/
def Obligations.FeedOfSameCounterDoesNothing : Prop :=
  ∀ (s : State) (S : EventSnapshot), s.initialized = true → (S.counter.toNat + 256 - s.lastCounter.toNat) % 256 = 0 →
    exec (.feed S) s = .next { s with responses := s.responses ++ [.ok (.items [])] }

/-- R174, R175, R176: a FEED of a new counter: one loss of `diff - 5` events when `diff` exceeds 5, then the `min(diff, 5)` newest records,
oldest first; the snapshot is pushed, the oldest entry being dropped when the ring is full, and its counter is taken. The premise
`s.inv` is R27. -/
def Obligations.FeedOfNewCounterReplays : Prop :=
  ∀ (s : State) (S P : EventSnapshot) (diff : Nat), s.inv → s.initialized = true → s.history.getLast? = some P →
    diff = (S.counter.toNat + 256 - s.lastCounter.toNat) % 256 → diff ≠ 0 →
    exec (.feed S) s = .next { s with
      lastCounter := S.counter
      history := if s.history.length = Config.histN then s.history.tail ++ [S] else s.history ++ [S]
      responses := s.responses ++ [.ok (.items (
        (if 5 < diff then [.loss (diff - 5) P S] else []) ++
        ((List.range (min diff 5)).reverse.filterMap (S.records[·]?)).map .event))] }

/-- R23: `initialized` is false at reset, no command but FEED changes it, FEED sets it, and the only step that clears it is the reset
input. -/
def Obligations.OnlyResetClearsInitialized : Prop :=
  State.reset.initialized = false ∧
  (∀ (i : Instr) (s t : State), exec i s = .next t → (∀ S, i ≠ .feed S) → t.initialized = s.initialized) ∧
  (∀ (S : EventSnapshot) (s t : State), exec (.feed S) s = .next t → t.initialized = true) ∧
  (∀ (s t : State), step s = .next t → s.initialized = true → t.initialized = false →
    ∃ rest, s.inputs = (arrived s.inputs).map .byte ++ .reset :: rest ∧ t = s.applyReset rest)

/-- R58: which elements each command writes, that its response and what it writes depend only on the elements it reads, and that a
command that writes nothing repeats its response. The spec marks R58 ("Which commands write state") as its own inference, so this cites
what it rests on. -/
def Obligations.CommandsReadAndWriteOnlyTheirElements : Prop :=
  (∀ (i : Instr) (s t : State), exec i s = .next t →
    (i ≠ .crcClr → (∀ b, i ≠ .crcByte b) → t.crcAcc = s.crcAcc) ∧
    (i ≠ .sumClr → (∀ b, i ≠ .sumByte b) → t.sumAcc = s.sumAcc) ∧
    ((∀ S, i ≠ .feed S) → t.initialized = s.initialized ∧ t.lastCounter = s.lastCounter ∧ t.history = s.history)) ∧
  (∀ (i : Instr) (s s' t t' : State), s.inv → s'.inv → exec i s = .next t → exec i s' = .next t' →
    ((∃ b, i = .crcByte b) → s.crcAcc = s'.crcAcc) → ((∃ b, i = .sumByte b) → s.sumAcc = s'.sumAcc) →
    ((∃ S, i = .feed S) → s.initialized = s'.initialized ∧ s.lastCounter = s'.lastCounter ∧ s.history = s'.history) →
    (∃ r, t.responses = s.responses ++ [r] ∧ t'.responses = s'.responses ++ [r]) ∧
    (i = .crcClr ∨ (∃ b, i = .crcByte b) → t.crcAcc = t'.crcAcc) ∧ (i = .sumClr ∨ (∃ b, i = .sumByte b) → t.sumAcc = t'.sumAcc) ∧
    ((∃ S, i = .feed S) → t.initialized = t'.initialized ∧ t.lastCounter = t'.lastCounter ∧ t.history = t'.history)) ∧
  (∀ (i : Instr) (s t u : State), exec i s = .next t → exec i t = .next u →
    i.opcode ∉ [.crcClr, .crcByte, .sumClr, .sumByte, .feed] →
    ∃ r, t.responses = s.responses ++ [r] ∧ u.responses = t.responses ++ [r]) ∧
  (∀ (s : State) (op : Byte), s.sameRecord (s.undefinedOp op) ∧ (s.undefinedOp op).responses = s.responses ++ [.illegalOperation op])

/-- R26: the older history entries are unobservable: two states that differ only in history, with the same newest entry, give the same
responses to every list of commands. -/
def Obligations.OlderHistoryIsUnobservable : Prop :=
  ∀ (is : List Instr) (s : State) (h₁ h₂ : List EventSnapshot), h₁.getLast? = h₂.getLast? →
    ∃ t₁ t₂, execAll is { s with history := h₁ } = .next t₁ ∧ execAll is { s with history := h₂ } = .next t₂ ∧
      t₁.responses = t₂.responses

/-- The value of `lastCounter` cannot be observed before the first FEED (10_state.md R24): two uninitialized states that differ only in it
give the same responses to every list of commands. -/
def Obligations.UninitializedCounterIsUnobservable : Prop :=
  ∀ (is : List Instr) (s : State) (c : Byte), s.initialized = false →
    ∃ t₁ t₂, execAll is s = .next t₁ ∧ execAll is { s with lastCounter := c } = .next t₂ ∧ t₁.responses = t₂.responses

/-- R178: the events a FEED emits and reports lost, by number. The spec marks R178 ("Sequence numbering") as its own inference, so this
cites what it rests on. The device's events are log entry 11. -/
def Obligations.FeedEmitsEventsByNumber : Prop :=
  ∀ (log : Nat → EventRecord) (n m : Nat) (s : State) (S P : EventSnapshot), s.initialized = true → s.history.getLast? = some P →
    s.lastCounter = BitVec.ofNat 8 n → n < m → m - n < 256 → IsSnapshotOf log m S →
    ∃ t, exec (.feed S) s = .next t ∧ t.responses = s.responses ++ [.ok (.items (
      if m - n ≤ 5 then (List.range (m - n)).map fun j => .event (log (n + 1 + j))
      else .loss (m - n - 5) P S :: (List.range 5).map fun j => .event (log (m - 4 + j))))]

/-- R182: exactly-once delivery. Fed the snapshots of one device in order, with fewer than 256 events between two of them, the block
accounts for every event after the seeding snapshot, in chronological order: the item at position `j` of the account is the event `n + 1
+ j` or an event counted lost. A multiple of 256 events between two FEEDs is missed in silence, and any other number of 256 or more is
under-counted. The spec marks R182 ("Exactly-once delivery, and where it stops") as its own inference, so this cites what it rests on.
The device's events are log entry 11. -/
def Obligations.ExactlyOnceDelivery : Prop :=
  (∀ (log : Nat → EventRecord) (n : Nat) (S : EventSnapshot) (snaps : List (Nat × EventSnapshot)) (s : State),
    s.initialized = false → IsSnapshotOf log n S → SnapshotsInOrder log n snaps →
    ∃ (t : State) (rs : List Response), execAll (.feed S :: snaps.map fun p => .feed p.2) s = .next t ∧
      t.responses = s.responses ++ rs ∧ (accounted rs).length = lastCount n snaps - n ∧
      ∀ (j : Nat) (e : EventRecord), (accounted rs)[j]? = some (some e) → e = log (n + 1 + j)) ∧
  (∀ (log : Nat → EventRecord) (n m : Nat) (S : EventSnapshot) (s : State), s.initialized = true → s.lastCounter = BitVec.ofNat 8 n →
    n ≤ m → (m - n) % 256 = 0 → IsSnapshotOf log m S →
    exec (.feed S) s = .next { s with responses := s.responses ++ [.ok (.items [])] }) ∧
  (∀ (log : Nat → EventRecord) (n m : Nat) (S : EventSnapshot) (s : State), s.initialized = true → s.lastCounter = BitVec.ofNat 8 n →
    256 ≤ m - n → (m - n) % 256 ≠ 0 → IsSnapshotOf log m S →
    ∃ (t : State) (r : Response), exec (.feed S) s = .next t ∧ t.responses = s.responses ++ [r] ∧
      (accounted [r]).length = (m - n) % 256 ∧ (accounted [r]).length < m - n)

/-! ### The assembler -/

/-- What each line of assembly encodes as (30_encoding.md R88): one clause for every row of its table, in the table's order, for operands
that their length field can count; then the lines with more than 255 data bytes, which are rejected. -/
def Obligations.AssemblyLinesEncode : Prop :=
  AsmLine.crcClr.assemble = some [0x10] ∧
  (∀ b : Byte, (AsmLine.crcByte b).assemble = some [0x11, b]) ∧
  (∀ p : List Byte, p.length ≤ 65535 → (AsmLine.crcCalc p).assemble =
    some ([0x12, BitVec.ofNat 8 (p.length % 256), BitVec.ofNat 8 (p.length / 256)] ++ p)) ∧
  AsmLine.sumClr.assemble = some [0x20] ∧
  (∀ b : Byte, (AsmLine.sumByte b).assemble = some [0x21, b]) ∧
  (∀ (d s h : Byte) (x : List Byte), x.length ≤ 255 → (AsmLine.sumCalc d s h x).assemble =
    some ([0x22, d, s, h, BitVec.ofNat 8 x.length] ++ x)) ∧
  (∀ (dst hdr : Option Byte) (x : List Byte), x.length ≤ 255 → (AsmLine.buildCrc dst hdr x).assemble =
    some ([0x30, BitVec.ofNat 8 (dst.isSome.toNat + 4 * hdr.isSome.toNat), dst.getD 0, 0, hdr.getD 0, BitVec.ofNat 8 x.length] ++ x)) ∧
  (∀ (dst src hdr : Option Byte) (x : List Byte), x.length ≤ 255 → (AsmLine.buildSimple dst src hdr x).assemble =
    some ([0x31, BitVec.ofNat 8 (dst.isSome.toNat + 2 * src.isSome.toNat + 4 * hdr.isSome.toNat), dst.getD 0, src.getD 0, hdr.getD 0,
      BitVec.ofNat 8 x.length] ++ x)) ∧
  (∀ f : List Byte, f.length ≤ 65535 → (AsmLine.parseCrc f).assemble =
    some ([0x40, BitVec.ofNat 8 (f.length % 256), BitVec.ofNat 8 (f.length / 256)] ++ f)) ∧
  (∀ f : List Byte, f.length ≤ 65535 → (AsmLine.parseSimple f).assemble =
    some ([0x41, BitVec.ofNat 8 (f.length % 256), BitVec.ofNat 8 (f.length / 256)] ++ f)) ∧
  (∀ c a0 b0 a1 b1 a2 b2 a3 b3 a4 b4 : Byte,
    (AsmLine.feed ⟨c, ⟨a0, b0⟩, ⟨a1, b1⟩, ⟨a2, b2⟩, ⟨a3, b3⟩, ⟨a4, b4⟩⟩).assemble =
      some [0x50, c, a0, b0, a1, b1, a2, b2, a3, b3, a4, b4]) ∧
  (∀ a b : Byte, (AsmLine.fwdDist a b).assemble = some [0x51, a, b]) ∧
  (∀ v : Byte, (AsmLine.rawByte v).assemble = some [v]) ∧
  (∀ (dst src hdr : Option Byte) (d s h : Byte) (x : List Byte), 255 < x.length → (AsmLine.buildCrc dst hdr x).assemble = none ∧
    (AsmLine.buildSimple dst src hdr x).assemble = none ∧ (AsmLine.sumCalc d s h x).assemble = none)
end

