-- ==== Sys2Proof/Laws/Crc.lean ====
section
/-!
SUPPORT. The CRC register's update is linear: one bit, some bits, one byte.
-/

namespace Sys2Proof.Machine

/-- One shift of an exclusive or is the exclusive or of the shifts. -/
theorem crcShift_xor (a b : Word16) : crcShift (a ^^^ b) = crcShift a ^^^ crcShift b := by
  have hs : (a ^^^ b) <<< 1 = (a <<< 1) ^^^ (b <<< 1) := BitVec.shiftLeft_xor_distrib a b 1
  have hp : (a <<< 1 ^^^ 0x1021#16) ^^^ (b <<< 1 ^^^ 0x1021#16) = a <<< 1 ^^^ b <<< 1 := by
    rw [show (a <<< 1 ^^^ 0x1021#16) ^^^ (b <<< 1 ^^^ 0x1021#16) = a <<< 1 ^^^ b <<< 1 ^^^ (0x1021#16 ^^^ 0x1021#16) by ac_rfl,
      BitVec.xor_self, BitVec.xor_zero]
  unfold crcShift
  rw [BitVec.getLsbD_xor, hs]
  cases a.getLsbD 15 <;> cases b.getLsbD 15
  · rfl
  · exact (BitVec.xor_assoc ..)
  · show a <<< 1 ^^^ b <<< 1 ^^^ 0x1021#16 = (a <<< 1 ^^^ 0x1021#16) ^^^ b <<< 1
    ac_rfl
  · exact hp.symm

/-- So for any number of shifts. -/
theorem repeat_crcShift_xor (n : Nat) (a b : Word16) :
    Nat.repeat crcShift n (a ^^^ b) = Nat.repeat crcShift n a ^^^ Nat.repeat crcShift n b := by
  induction n with
  | zero => rfl
  | succ n ih => rw [Nat.repeat, Nat.repeat, Nat.repeat, ih, crcShift_xor]

/-- So for one byte, register and byte together. -/
theorem crcStep_xor (a b : Word16) (x y : Byte) : crcStep (a ^^^ b) (x ^^^ y) = crcStep a x ^^^ crcStep b y := by
  rw [crcStep, crcStep, crcStep, ← repeat_crcShift_xor, BitVec.setWidth_xor, BitVec.shiftLeft_xor_distrib]
  congr 1
  ac_rfl

end Sys2Proof.Machine
end

