-- ==== Sys2Proof/Laws/Decode.lean ====
section
/-!
SUPPORT. Small facts about op bytes, length fields and encodings.
-/

namespace Sys2Proof

/-- The op-code map sends the op byte of an op code back to it. -/
@[simp] theorem Opcode.ofByte_byte (o : Opcode) : Opcode.ofByte o.byte = some o := by cases o <;> decide

/-- An op byte that names an op code is that op code's byte. -/
theorem Opcode.byte_of_ofByte {b : Byte} {o : Opcode} (h : Opcode.ofByte b = some o) : o.byte = b := by
  simpa using List.find?_some h

/-- A length below 2^16 is read back from its two length bytes. -/
theorem lengthL_encode {n : Nat} (h : n ≤ Config.byteSeqMax) :
    lengthL (BitVec.ofNat 8 n) (BitVec.ofNat 8 (n / 256)) = n := by
  simp only [Config.byteSeqMax] at h
  simp only [lengthL, BitVec.toNat_ofNat]
  omega

/-- Two length bytes say at most 65535. -/
theorem lengthL_le (nlo nhi : Byte) : lengthL nlo nhi ≤ Config.byteSeqMax := by
  have h1 := nlo.isLt
  have h2 := nhi.isLt
  simp only [lengthL, Config.byteSeqMax]
  omega

/-- A length of at most 255 is read back from its length byte. -/
theorem toNat_lengthByte {n : Nat} (h : n ≤ Config.dataMax) : (BitVec.ofNat 8 n).toNat = n := by
  simp only [Config.dataMax] at h
  simp only [BitVec.toNat_ofNat]
  omega

/-- Every command has at least its op byte. -/
theorem encode_ne_nil (i : Instr) : encode i ≠ [] := by simp [encode]

/-- Two length bytes are the encoding of the length they say. -/
theorem encodeLengthL_lengthL (nlo nhi : Byte) : encodeLengthL (lengthL nlo nhi) = [nlo, nhi] := by
  have h1 := nlo.isLt
  have h2 := nhi.isLt
  have e1 : BitVec.ofNat 8 (lengthL nlo nhi) = nlo := by
    apply BitVec.eq_of_toNat_eq
    simp only [lengthL, BitVec.toNat_ofNat]
    omega
  have e2 : BitVec.ofNat 8 (lengthL nlo nhi / 256) = nhi := by
    apply BitVec.eq_of_toNat_eq
    simp only [lengthL, BitVec.toNat_ofNat]
    omega
  rw [encodeLengthL, e1, e2]

/-! ### What each operand decoder reads -/

/-- Format B read a command: its byte is there. -/
theorem decodeB_eq_command {mk : Byte → Instr} {bs : List Byte} {i : Instr} {n : Nat} (h : decodeB mk bs = .command i n) :
    ∃ b rest, bs = b :: rest ∧ i = mk b ∧ n = 2 := by
  cases bs with
  | nil => cases h
  | cons b rest => cases h; exact ⟨b, rest, rfl, rfl, rfl⟩

/-- Format P read a command: its two bytes are there. -/
theorem decodeP_eq_command {mk : Byte → Byte → Instr} {bs : List Byte} {i : Instr} {n : Nat} (h : decodeP mk bs = .command i n) :
    ∃ a b rest, bs = a :: b :: rest ∧ i = mk a b ∧ n = 3 := by
  unfold decodeP at h
  split at h
  · cases h; exact ⟨_, _, _, rfl, rfl, rfl⟩
  · cases h

/-- Format L read a command: its length bytes and all its operand bytes are there, at most 65535 of them. -/
theorem decodeL_eq_command {mk : List Byte → Instr} {bs : List Byte} {i : Instr} {n : Nat} (h : decodeL mk bs = .command i n) :
    ∃ p rest, bs = encodeLengthL p.length ++ p ++ rest ∧ i = mk p ∧ n = 3 + p.length ∧ p.length ≤ Config.byteSeqMax := by
  unfold decodeL at h
  split at h
  · rename_i nlo nhi rest
    split at h
    · rename_i hle
      cases h
      have hl : (rest.take (lengthL nlo nhi)).length = lengthL nlo nhi := by rw [List.length_take, Nat.min_eq_left hle]
      refine ⟨rest.take (lengthL nlo nhi), rest.drop (lengthL nlo nhi), ?_, rfl, by rw [hl], ?_⟩
      · rw [hl, encodeLengthL_lengthL, List.append_assoc, List.take_append_drop]; rfl
      · rw [hl]; exact lengthL_le nlo nhi
    · cases h
  · cases h

/-- Format M read a command: its fields and all its data bytes are there, at most 255 of them. -/
theorem decodeM_eq_command {mk : Byte → Byte → Byte → List Byte → Instr} {bs : List Byte} {i : Instr} {n : Nat}
    (h : decodeM mk bs = .command i n) :
    ∃ d s hd x rest, bs = [d, s, hd, BitVec.ofNat 8 x.length] ++ x ++ rest ∧ i = mk d s hd x ∧ n = 5 + x.length ∧
      x.length ≤ Config.dataMax := by
  unfold decodeM at h
  split at h
  · rename_i d s hd m rest
    split at h
    · rename_i hle
      cases h
      have hl : (rest.take m.toNat).length = m.toNat := by rw [List.length_take, Nat.min_eq_left hle]
      refine ⟨d, s, hd, rest.take m.toNat, rest.drop m.toNat, ?_, rfl, by rw [hl], ?_⟩
      · rw [hl, BitVec.ofNat_toNat, BitVec.setWidth_eq, List.append_assoc, List.take_append_drop]; rfl
      · rw [hl]; exact Nat.le_of_lt_succ m.isLt
    · cases h
  · cases h

/-- Format BLD read a command: its fields and all its data bytes are there, at most 255 of them. -/
theorem decodeBLD_eq_command {mk : Byte → Byte → Byte → Byte → List Byte → Instr} {bs : List Byte} {i : Instr} {n : Nat}
    (h : decodeBLD mk bs = .command i n) :
    ∃ flags d s hd x rest, bs = [flags, d, s, hd, BitVec.ofNat 8 x.length] ++ x ++ rest ∧ i = mk flags d s hd x ∧
      n = 6 + x.length ∧ x.length ≤ Config.dataMax := by
  unfold decodeBLD at h
  split at h
  · rename_i flags d s hd m rest
    split at h
    · rename_i hle
      cases h
      have hl : (rest.take m.toNat).length = m.toNat := by rw [List.length_take, Nat.min_eq_left hle]
      refine ⟨flags, d, s, hd, rest.take m.toNat, rest.drop m.toNat, ?_, rfl, by rw [hl], ?_⟩
      · rw [hl, BitVec.ofNat_toNat, BitVec.setWidth_eq, List.append_assoc, List.take_append_drop]; rfl
      · rw [hl]; exact Nat.le_of_lt_succ m.isLt
    · cases h
  · cases h

/-- Format S read a command: its counter and its five records are there. -/
theorem decodeS_eq_command {mk : EventSnapshot → Instr} {bs : List Byte} {i : Instr} {n : Nat} (h : decodeS mk bs = .command i n) :
    ∃ S rest, bs = S.counter :: S.records.flatMap encodeRecord ++ rest ∧ i = mk S ∧ n = 12 := by
  unfold decodeS at h
  split at h
  · cases h; exact ⟨_, _, rfl, rfl, rfl⟩
  · cases h

end Sys2Proof
end

