-- ==== Sys2Proof/Laws/State.lean ====
section
/-!
SUPPORT. What each update does to each field of the state: one lemma per field per update, so that no proof unfolds an update.
-/

namespace Sys2Proof.Machine

/-! ### respond -/

@[simp] theorem State.respond_crcAcc (s : State) (r : Response) : (s.respond r).crcAcc = s.crcAcc := rfl
@[simp] theorem State.respond_sumAcc (s : State) (r : Response) : (s.respond r).sumAcc = s.sumAcc := rfl
@[simp] theorem State.respond_initialized (s : State) (r : Response) : (s.respond r).initialized = s.initialized := rfl
@[simp] theorem State.respond_lastCounter (s : State) (r : Response) : (s.respond r).lastCounter = s.lastCounter := rfl
@[simp] theorem State.respond_history (s : State) (r : Response) : (s.respond r).history = s.history := rfl
@[simp] theorem State.respond_inputs (s : State) (r : Response) : (s.respond r).inputs = s.inputs := rfl
@[simp] theorem State.respond_responses (s : State) (r : Response) : (s.respond r).responses = s.responses ++ [r] := rfl

/-! ### respondOk -/

@[simp] theorem State.respondOk_crcAcc (s : State) (p : Payload) : (s.respondOk p).crcAcc = s.crcAcc := rfl
@[simp] theorem State.respondOk_sumAcc (s : State) (p : Payload) : (s.respondOk p).sumAcc = s.sumAcc := rfl
@[simp] theorem State.respondOk_initialized (s : State) (p : Payload) : (s.respondOk p).initialized = s.initialized := rfl
@[simp] theorem State.respondOk_lastCounter (s : State) (p : Payload) : (s.respondOk p).lastCounter = s.lastCounter := rfl
@[simp] theorem State.respondOk_history (s : State) (p : Payload) : (s.respondOk p).history = s.history := rfl
@[simp] theorem State.respondOk_inputs (s : State) (p : Payload) : (s.respondOk p).inputs = s.inputs := rfl
@[simp] theorem State.respondOk_responses (s : State) (p : Payload) : (s.respondOk p).responses = s.responses ++ [.ok p] := rfl

/-! ### raise -/

@[simp] theorem State.raise_crcAcc (s : State) (r : Response) : (s.raise r).crcAcc = s.crcAcc := rfl
@[simp] theorem State.raise_sumAcc (s : State) (r : Response) : (s.raise r).sumAcc = s.sumAcc := rfl
@[simp] theorem State.raise_initialized (s : State) (r : Response) : (s.raise r).initialized = s.initialized := rfl
@[simp] theorem State.raise_lastCounter (s : State) (r : Response) : (s.raise r).lastCounter = s.lastCounter := rfl
@[simp] theorem State.raise_history (s : State) (r : Response) : (s.raise r).history = s.history := rfl
@[simp] theorem State.raise_inputs (s : State) (r : Response) : (s.raise r).inputs = s.inputs := rfl
@[simp] theorem State.raise_responses (s : State) (r : Response) : (s.raise r).responses = s.responses ++ [r] := rfl

/-! ### setCrc -/

@[simp] theorem State.setCrc_crcAcc (s : State) (v : Word16) : (s.setCrc v).crcAcc = v := rfl
@[simp] theorem State.setCrc_sumAcc (s : State) (v : Word16) : (s.setCrc v).sumAcc = s.sumAcc := rfl
@[simp] theorem State.setCrc_initialized (s : State) (v : Word16) : (s.setCrc v).initialized = s.initialized := rfl
@[simp] theorem State.setCrc_lastCounter (s : State) (v : Word16) : (s.setCrc v).lastCounter = s.lastCounter := rfl
@[simp] theorem State.setCrc_history (s : State) (v : Word16) : (s.setCrc v).history = s.history := rfl
@[simp] theorem State.setCrc_inputs (s : State) (v : Word16) : (s.setCrc v).inputs = s.inputs := rfl
@[simp] theorem State.setCrc_responses (s : State) (v : Word16) : (s.setCrc v).responses = s.responses := rfl

/-! ### setSum -/

@[simp] theorem State.setSum_crcAcc (s : State) (v : Byte) : (s.setSum v).crcAcc = s.crcAcc := rfl
@[simp] theorem State.setSum_sumAcc (s : State) (v : Byte) : (s.setSum v).sumAcc = v := rfl
@[simp] theorem State.setSum_initialized (s : State) (v : Byte) : (s.setSum v).initialized = s.initialized := rfl
@[simp] theorem State.setSum_lastCounter (s : State) (v : Byte) : (s.setSum v).lastCounter = s.lastCounter := rfl
@[simp] theorem State.setSum_history (s : State) (v : Byte) : (s.setSum v).history = s.history := rfl
@[simp] theorem State.setSum_inputs (s : State) (v : Byte) : (s.setSum v).inputs = s.inputs := rfl
@[simp] theorem State.setSum_responses (s : State) (v : Byte) : (s.setSum v).responses = s.responses := rfl

/-! ### accept -/

@[simp] theorem State.accept_crcAcc (s : State) (cap : Nat) (h : List EventSnapshot) (S : EventSnapshot) : (s.accept cap h S).crcAcc = s.crcAcc := rfl
@[simp] theorem State.accept_sumAcc (s : State) (cap : Nat) (h : List EventSnapshot) (S : EventSnapshot) : (s.accept cap h S).sumAcc = s.sumAcc := rfl
@[simp] theorem State.accept_initialized (s : State) (cap : Nat) (h : List EventSnapshot) (S : EventSnapshot) : (s.accept cap h S).initialized = true := rfl
@[simp] theorem State.accept_lastCounter (s : State) (cap : Nat) (h : List EventSnapshot) (S : EventSnapshot) : (s.accept cap h S).lastCounter = S.counter := rfl
@[simp] theorem State.accept_history (s : State) (cap : Nat) (h : List EventSnapshot) (S : EventSnapshot) : (s.accept cap h S).history = push cap h S := rfl
@[simp] theorem State.accept_inputs (s : State) (cap : Nat) (h : List EventSnapshot) (S : EventSnapshot) : (s.accept cap h S).inputs = s.inputs := rfl
@[simp] theorem State.accept_responses (s : State) (cap : Nat) (h : List EventSnapshot) (S : EventSnapshot) : (s.accept cap h S).responses = s.responses := rfl

/-! ### receive -/

@[simp] theorem State.receive_crcAcc (s : State) (new : List Input) : (s.receive new).crcAcc = s.crcAcc := rfl
@[simp] theorem State.receive_sumAcc (s : State) (new : List Input) : (s.receive new).sumAcc = s.sumAcc := rfl
@[simp] theorem State.receive_initialized (s : State) (new : List Input) : (s.receive new).initialized = s.initialized := rfl
@[simp] theorem State.receive_lastCounter (s : State) (new : List Input) : (s.receive new).lastCounter = s.lastCounter := rfl
@[simp] theorem State.receive_history (s : State) (new : List Input) : (s.receive new).history = s.history := rfl
@[simp] theorem State.receive_inputs (s : State) (new : List Input) : (s.receive new).inputs = s.inputs ++ new := rfl
@[simp] theorem State.receive_responses (s : State) (new : List Input) : (s.receive new).responses = s.responses := rfl

/-! ### consume -/

@[simp] theorem State.consume_crcAcc (s : State) (n : Nat) : (s.consume n).crcAcc = s.crcAcc := rfl
@[simp] theorem State.consume_sumAcc (s : State) (n : Nat) : (s.consume n).sumAcc = s.sumAcc := rfl
@[simp] theorem State.consume_initialized (s : State) (n : Nat) : (s.consume n).initialized = s.initialized := rfl
@[simp] theorem State.consume_lastCounter (s : State) (n : Nat) : (s.consume n).lastCounter = s.lastCounter := rfl
@[simp] theorem State.consume_history (s : State) (n : Nat) : (s.consume n).history = s.history := rfl
@[simp] theorem State.consume_inputs (s : State) (n : Nat) : (s.consume n).inputs = s.inputs.drop n := rfl
@[simp] theorem State.consume_responses (s : State) (n : Nat) : (s.consume n).responses = s.responses := rfl

/-! ### applyReset -/

@[simp] theorem State.applyReset_crcAcc (s : State) (rest : List Input) : (s.applyReset rest).crcAcc = 0x0000 := rfl
@[simp] theorem State.applyReset_sumAcc (s : State) (rest : List Input) : (s.applyReset rest).sumAcc = 0x00 := rfl
@[simp] theorem State.applyReset_initialized (s : State) (rest : List Input) : (s.applyReset rest).initialized = false := rfl
@[simp] theorem State.applyReset_lastCounter (s : State) (rest : List Input) : (s.applyReset rest).lastCounter = 0x00 := rfl
@[simp] theorem State.applyReset_history (s : State) (rest : List Input) : (s.applyReset rest).history = [] := rfl
@[simp] theorem State.applyReset_inputs (s : State) (rest : List Input) : (s.applyReset rest).inputs = rest := rfl
@[simp] theorem State.applyReset_responses (s : State) (rest : List Input) : (s.applyReset rest).responses = s.responses := rfl

/-! ### undefinedOp -/

@[simp] theorem State.undefinedOp_crcAcc (s : State) (op : Byte) : (s.undefinedOp op).crcAcc = s.crcAcc := rfl
@[simp] theorem State.undefinedOp_sumAcc (s : State) (op : Byte) : (s.undefinedOp op).sumAcc = s.sumAcc := rfl
@[simp] theorem State.undefinedOp_initialized (s : State) (op : Byte) : (s.undefinedOp op).initialized = s.initialized := rfl
@[simp] theorem State.undefinedOp_lastCounter (s : State) (op : Byte) : (s.undefinedOp op).lastCounter = s.lastCounter := rfl
@[simp] theorem State.undefinedOp_history (s : State) (op : Byte) : (s.undefinedOp op).history = s.history := rfl
@[simp] theorem State.undefinedOp_inputs (s : State) (op : Byte) : (s.undefinedOp op).inputs = s.inputs.drop 1 := rfl
@[simp] theorem State.undefinedOp_responses (s : State) (op : Byte) : (s.undefinedOp op).responses = s.responses ++ [.illegalOperation op] := rfl

/-! ### withFetchWord -/

@[simp] theorem State.withFetchWord_crcAcc (s : State) (nbits w : Nat) : (s.withFetchWord nbits w).crcAcc = s.crcAcc := rfl
@[simp] theorem State.withFetchWord_sumAcc (s : State) (nbits w : Nat) : (s.withFetchWord nbits w).sumAcc = s.sumAcc := rfl
@[simp] theorem State.withFetchWord_initialized (s : State) (nbits w : Nat) : (s.withFetchWord nbits w).initialized = s.initialized := rfl
@[simp] theorem State.withFetchWord_lastCounter (s : State) (nbits w : Nat) : (s.withFetchWord nbits w).lastCounter = s.lastCounter := rfl
@[simp] theorem State.withFetchWord_history (s : State) (nbits w : Nat) : (s.withFetchWord nbits w).history = s.history := rfl
@[simp] theorem State.withFetchWord_inputs (s : State) (nbits w : Nat) : (s.withFetchWord nbits w).inputs = (tableBytes nbits w).map .byte ++ s.inputs := rfl
@[simp] theorem State.withFetchWord_responses (s : State) (nbits w : Nat) : (s.withFetchWord nbits w).responses = s.responses := rfl

/-! ### reset -/

@[simp] theorem State.reset_crcAcc : State.reset.crcAcc = 0x0000 := rfl
@[simp] theorem State.reset_sumAcc : State.reset.sumAcc = 0x00 := rfl
@[simp] theorem State.reset_initialized : State.reset.initialized = false := rfl
@[simp] theorem State.reset_lastCounter : State.reset.lastCounter = 0x00 := rfl
@[simp] theorem State.reset_history : State.reset.history = [] := rfl
@[simp] theorem State.reset_inputs : State.reset.inputs = [] := rfl
@[simp] theorem State.reset_responses : State.reset.responses = [] := rfl

end Sys2Proof.Machine
end

