-- ==== Sys2Proof/Laws/Ops.lean ====
section
/-!
SUPPORT. What each shared operation can do, said once: giving a response, the history ring, the ports, waiting, and the FEED
algorithm.
-/

namespace Sys2Proof.Machine

/-! ### Responses -/

/-- A command that completes with a response gives it and changes nothing else, whatever its status. -/
theorem State.complete_eq (s : State) (r : Response) : s.complete r = .next (s.respond r) := by
  cases r <;> rfl

/-! ### The history ring -/

/-- A list within the capacity stays as it is. -/
theorem trim_of_le {cap : Nat} {l : List EventSnapshot} (h : l.length ≤ cap) : trim cap l = l := by
  cases l with
  | nil => rfl
  | cons x xs => rw [trim, if_neg (Nat.not_lt.mpr h)]

/-- What is kept is the end of the list: the oldest entries beyond the capacity are dropped. -/
theorem trim_eq_drop (cap : Nat) (l : List EventSnapshot) : trim cap l = l.drop (l.length - cap) := by
  induction l with
  | nil => simp [trim]
  | cons x xs ih =>
    rw [trim]
    split
    · rename_i h
      rw [ih]
      have : (x :: xs).length - cap = (xs.length - cap) + 1 := by simp only [List.length_cons] at h ⊢; omega
      rw [this, List.drop_succ_cons]
    · rename_i h
      rw [Nat.sub_eq_zero_of_le (Nat.not_lt.mp h), List.drop_zero]

/-- A pushed ring is within its capacity. -/
theorem push_length_le (cap : Nat) (h : List EventSnapshot) (S : EventSnapshot) : (push cap h S).length ≤ cap := by
  simp only [push, trim_eq_drop, List.length_drop]
  omega

/-- With a capacity of at least 1, the newest entry of a pushed ring is the snapshot pushed. -/
theorem push_getLast? {cap : Nat} (hc : 1 ≤ cap) (h : List EventSnapshot) (S : EventSnapshot) :
    (push cap h S).getLast? = some S := by
  have hlt : ¬ (h ++ [S]).length ≤ (h ++ [S]).length - cap := by simp only [List.length_append, List.length_singleton]; omega
  rw [push, trim_eq_drop, List.getLast?_drop, if_neg hlt]
  simp

/-- A pushed ring with room for the snapshot loses nothing. -/
theorem push_of_room {cap : Nat} {h : List EventSnapshot} (hr : h.length < cap) (S : EventSnapshot) :
    push cap h S = h ++ [S] := trim_of_le (by simpa using hr)

/-- A pushed ring that was full loses its oldest entry. -/
theorem push_of_full {x : EventSnapshot} {h : List EventSnapshot} (S : EventSnapshot) :
    push (x :: h).length (x :: h) S = h ++ [S] := by
  simp [push, trim_eq_drop]

/-- The instance's capacity is at least 1 (70_reset_and_hazards.md R242). -/
theorem one_le_histN : 1 ≤ Config.histN := Nat.le_add_left 1 _

/-- `newest` of a ring with a last entry is that entry. -/
theorem newest_of_getLast? {absent P : EventSnapshot} {h : List EventSnapshot} (hl : h.getLast? = some P) :
    newest absent h = P := by
  simp [newest, List.getLastD_eq_getLast?, hl]

/-! ### The ports -/

/-- Bytes at the front of the inputs have arrived. -/
theorem arrived_bytes_append (bs : List Byte) (rest : List Input) :
    arrived (bs.map .byte ++ rest) = bs ++ arrived rest := by
  induction bs with
  | nil => rfl
  | cons b bs ih => simp [arrived, ih]

/-- The inputs are the arrived bytes, and then nothing or a reset. -/
theorem inputs_eq_arrived (l : List Input) :
    l = (arrived l).map .byte ∨ ∃ rest, l = (arrived l).map .byte ++ .reset :: rest := by
  induction l with
  | nil => exact .inl rfl
  | cons x xs ih =>
    cases x with
    | reset => exact .inr ⟨xs, rfl⟩
    | byte b =>
      rcases ih with h | ⟨rest, h⟩
      · exact .inl (by rw [arrived, List.map_cons, ← h])
      · exact .inr ⟨rest, by rw [arrived, List.map_cons, List.cons_append, ← h]⟩

/-- All that waiting can do: a reset that stands behind the arrived bytes acts, or nothing stands there and the block is stuck. -/
theorem State.await_cases (s : State) :
    (∃ rest, s.inputs = (arrived s.inputs).map .byte ++ .reset :: rest ∧ s.await = .next (s.applyReset rest)) ∨
    (s.inputs = (arrived s.inputs).map .byte ∧
      s.await = if s.inputs = [] then .fault .portEmpty else .fault .commandIncomplete) := by
  rcases inputs_eq_arrived s.inputs with h | ⟨rest, h⟩
  · right
    refine ⟨h, ?_⟩
    have hd : s.inputs.drop (arrived s.inputs).length = [] := by
      have hl : s.inputs.length = (arrived s.inputs).length := by simpa using congrArg List.length h
      rw [List.drop_eq_nil_iff, hl]
    rw [State.await, hd]
  · left
    refine ⟨rest, h, ?_⟩
    have hd : s.inputs.drop (arrived s.inputs).length = .reset :: rest := by
      generalize arrived s.inputs = a at h
      rw [h, List.drop_append_of_le_length (by simp), List.drop_eq_nil_of_le (by simp), List.nil_append]
    rw [State.await, hd]

/-! ### FEED -/

/-- All that the FEED algorithm can do: seed, nothing, or take a new snapshot. -/
theorem State.feed_cases (s : State) (cap : Nat) (absent S : EventSnapshot) :
    (s.initialized = false ∧ s.feed cap absent S = (s.accept cap [] S).respondOk (.items [])) ∨
    (s.initialized = true ∧ S.counter = s.lastCounter ∧ s.feed cap absent S = s.respondOk (.items [])) ∨
    (s.initialized = true ∧ S.counter ≠ s.lastCounter ∧
      s.feed cap absent S = (s.accept cap s.history S).respondOk
        (.items (feedItems (fwdDist s.lastCounter S.counter).toNat (newest absent s.history) S))) := by
  have hd : fwdDist s.lastCounter S.counter = 0 ↔ S.counter = s.lastCounter := by
    unfold fwdDist
    constructor <;> intro h <;> bv_omega
  cases hi : s.initialized with
  | false => exact .inl ⟨rfl, by simp [State.feed, hi]⟩
  | true =>
    by_cases hc : S.counter = s.lastCounter
    · exact .inr (.inl ⟨rfl, hc, by simp [State.feed, hi, hd.mpr hc]⟩)
    · refine .inr (.inr ⟨rfl, hc, ?_⟩)
      rw [State.feed, if_neg (by simp [hi])]
      exact if_neg (mt hd.mp hc)

/-! ### The step -/

/-- All that a step can do, by what stands on the command port. -/
theorem step_cases (s : State) :
    (∃ i n, decode (arrived s.inputs) = .command i n ∧ step s = exec i (s.consume n)) ∨
    (∃ op, decode (arrived s.inputs) = .undefinedOp op ∧ step s = .next (s.undefinedOp op)) ∨
    (decode (arrived s.inputs) = .incomplete ∧ step s = s.await) := by
  unfold step
  cases decode (arrived s.inputs) with
  | command i n => exact .inl ⟨i, n, rfl, rfl⟩
  | undefinedOp op => exact .inr (.inl ⟨op, rfl, rfl⟩)
  | incomplete => exact .inr (.inr ⟨rfl, rfl⟩)

end Sys2Proof.Machine
end

