-- ==== Sys2Proof/Laws/Framing.lean ====
section
/-!
SUPPORT. What the builder and the parser can answer, said once, and the fields of an input written out by its bytes.
-/

namespace Sys2Proof.Machine

/-! ### The builder -/

/-- All that a BUILD command can answer: ILLEGAL_OPERATION, BUILD_ERROR with a mask, or the message and its frame. -/
theorem build_cases (op : Byte) (v : Variant) (flags d s : Byte) (m : Message) :
    (reservedSet flags = true ∧ build op v flags d s m = .illegalOperation op) ∨
    (reservedSet flags = false ∧ buildMask v (flagDV flags) d (flagSV flags) s (flagHV flags) ≠ 0 ∧
      build op v flags d s m = .buildError (buildMask v (flagDV flags) d (flagSV flags) s (flagHV flags))) ∨
    (reservedSet flags = false ∧ buildMask v (flagDV flags) d (flagSV flags) s (flagHV flags) = 0 ∧
      build op v flags d s m = .ok (.built m (encodeFrame m))) := by
  cases hr : reservedSet flags with
  | true => exact .inl ⟨rfl, by rw [build, hr]; rfl⟩
  | false =>
    by_cases hm : buildMask v (flagDV flags) d (flagSV flags) s (flagHV flags) = 0
    · exact .inr (.inr ⟨rfl, hm, by rw [build, hr]; exact if_neg (not_not.mpr hm)⟩)
    · exact .inr (.inl ⟨rfl, hm, by rw [build, hr]; exact if_pos hm⟩)

/-! ### The parser -/

/-- All that the framing checks can answer: too short, a length mismatch, or what the checksum check answers. -/
theorem parseFrame_cases (f : List Byte) (checked : Response) :
    (f.length < 5 ∧ parseFrame f checked = .framingTooShort f.length) ∨
    (5 ≤ f.length ∧ f.length ≠ 5 + (declaredLength f).toNat ∧
      parseFrame f checked = .framingLengthMismatch (declaredLength f) f.length) ∨
    (5 ≤ f.length ∧ f.length = 5 + (declaredLength f).toNat ∧ parseFrame f checked = checked) := by
  by_cases h5 : f.length < 5
  · exact .inl ⟨h5, if_pos h5⟩
  · by_cases hl : f.length = 5 + (declaredLength f).toNat
    · exact .inr (.inr ⟨Nat.not_lt.mp h5, hl, (if_neg h5).trans (if_neg (not_not.mpr hl))⟩)
    · exact .inr (.inl ⟨Nat.not_lt.mp h5, hl, (if_neg h5).trans (if_pos hl)⟩)

/-- An input of the length it declares is four bytes, the data it declares, and one byte. -/
theorem exists_fields_of_length {f : List Byte} (h5 : 5 ≤ f.length) (hl : f.length = 5 + (declaredLength f).toNat) :
    ∃ d n b h x c, f = [d, n, b, h] ++ x ++ [c] ∧ n.toNat = x.length := by
  match f, h5, hl with
  | d :: n :: b :: h :: r, h5, hl =>
    have hr : r ≠ [] := by rintro rfl; simp at h5
    refine ⟨d, n, b, h, r.dropLast, r.getLast hr, ?_, ?_⟩
    · simp [List.dropLast_append_getLast]
    · have hn : declaredLength (d :: n :: b :: h :: r) = n := rfl
      simp only [hn, List.length_cons] at hl
      rw [List.length_dropLast]
      omega

/-- The length of an input written out. -/
theorem length_fields (d n b h c : Byte) (x : List Byte) : ([d, n, b, h] ++ x ++ [c]).length = 5 + x.length := by
  simp only [List.length_append, List.length_cons, List.length_nil]
  omega

/-- Its data. -/
theorem frameData_fields {d n b h c : Byte} {x : List Byte} (hn : n.toNat = x.length) :
    frameData ([d, n, b, h] ++ x ++ [c]) = x := by
  have hd : declaredLength ([d, n, b, h] ++ x ++ [c]) = n := rfl
  rw [frameData, hd, hn]
  exact List.take_left

/-- Its last byte. -/
theorem byteAt_last_fields (d n b h c : Byte) (x : List Byte) :
    byteAt ([d, n, b, h] ++ x ++ [c]) (([d, n, b, h] ++ x ++ [c]).length - 1) = c := by
  rw [byteAt, List.getD_eq_getElem?_getD, ← List.getLast?_eq_getElem?, List.getLast?_concat]
  rfl

/-- The length byte of data of at most 255 bytes is their number. -/
theorem toNat_lengthByte_of_le {x : List Byte} (h : x.length ≤ Config.dataMax) : (lengthByte x).toNat = x.length :=
  toNat_lengthByte h

/-- A length byte that says the number of data bytes is their length byte. -/
theorem lengthByte_eq_of_toNat {n : Byte} {x : List Byte} (h : n.toNat = x.length) : lengthByte x = n := by
  rw [lengthByte, ← h, BitVec.ofNat_toNat, BitVec.setWidth_eq]

end Sys2Proof.Machine
end

