-- ==== Sys2Proof/Laws/PerInstr.lean ====
section
/-!
SUPPORT. Statements about every instruction as syntax, one lemma per constructor of `Instr`.
-/

namespace Sys2Proof.Laws.EncodedLength

/-- A well-formed command's encoding begins with its op byte, has the length that its format gives it, and that length is found from
the encoding's first bytes alone (30_encoding.md R79, R85). -/
def Statement (i : Instr) : Prop :=
  i.wellFormed = true → (encode i).head? = some i.opcode.byte ∧
    ∀ rest, commandLength (encode i ++ rest) = some (encode i).length

theorem crcClr : Statement .crcClr := fun _ => ⟨rfl, fun _ => rfl⟩

theorem crcByte (b : Byte) : Statement (.crcByte b) := fun _ => ⟨rfl, fun _ => rfl⟩

theorem crcCalc (p : List Byte) : Statement (.crcCalc p) := fun h => ⟨rfl, fun rest => by
  have hl := lengthL_encode (of_decide_eq_true h)
  simp only [commandLength, encode, encodeOperands, encodeLengthL, List.cons_append, List.nil_append, List.length_cons,
    Instr.opcode, Opcode.ofByte_byte, Option.map_some, Opcode.format, hl, Option.some.injEq]
  omega⟩

theorem sumClr : Statement .sumClr := fun _ => ⟨rfl, fun _ => rfl⟩

theorem sumByte (b : Byte) : Statement (.sumByte b) := fun _ => ⟨rfl, fun _ => rfl⟩

theorem sumCalc (d s h : Byte) (x : List Byte) : Statement (.sumCalc d s h x) := fun hw => ⟨rfl, fun rest => by
  have hl := toNat_lengthByte (of_decide_eq_true hw)
  simp only [commandLength, encode, encodeOperands, List.cons_append, List.nil_append, List.length_cons,
    Instr.opcode, Opcode.ofByte_byte, Option.map_some, Opcode.format, hl, Option.some.injEq]
  omega⟩

theorem buildCrc (flags d s h : Byte) (x : List Byte) : Statement (.buildCrc flags d s h x) := fun hw => ⟨rfl, fun rest => by
  have hl := toNat_lengthByte (of_decide_eq_true hw)
  simp only [commandLength, encode, encodeOperands, List.cons_append, List.nil_append, List.length_cons,
    Instr.opcode, Opcode.ofByte_byte, Option.map_some, Opcode.format, hl, Option.some.injEq]
  omega⟩

theorem buildSimple (flags d s h : Byte) (x : List Byte) : Statement (.buildSimple flags d s h x) := fun hw => ⟨rfl, fun rest => by
  have hl := toNat_lengthByte (of_decide_eq_true hw)
  simp only [commandLength, encode, encodeOperands, List.cons_append, List.nil_append, List.length_cons,
    Instr.opcode, Opcode.ofByte_byte, Option.map_some, Opcode.format, hl, Option.some.injEq]
  omega⟩

theorem parseCrc (f : List Byte) : Statement (.parseCrc f) := fun h => ⟨rfl, fun rest => by
  have hl := lengthL_encode (of_decide_eq_true h)
  simp only [commandLength, encode, encodeOperands, encodeLengthL, List.cons_append, List.nil_append, List.length_cons,
    Instr.opcode, Opcode.ofByte_byte, Option.map_some, Opcode.format, hl, Option.some.injEq]
  omega⟩

theorem parseSimple (f : List Byte) : Statement (.parseSimple f) := fun h => ⟨rfl, fun rest => by
  have hl := lengthL_encode (of_decide_eq_true h)
  simp only [commandLength, encode, encodeOperands, encodeLengthL, List.cons_append, List.nil_append, List.length_cons,
    Instr.opcode, Opcode.ofByte_byte, Option.map_some, Opcode.format, hl, Option.some.injEq]
  omega⟩

theorem feed (S : EventSnapshot) : Statement (.feed S) := fun _ => ⟨rfl, fun _ => rfl⟩

theorem fwdDist (a b : Byte) : Statement (.fwdDist a b) := fun _ => ⟨rfl, fun _ => rfl⟩

end Sys2Proof.Laws.EncodedLength
end

