-- ==== Sys2Proof/Laws/Run.lean ====
section
/-!
SUPPORT. Running steps and commands: one equation per outcome of the first step or command.
-/

namespace Sys2Proof.Machine

/-- A run whose first step answers a next state goes on from there. -/
theorem run_next {s t : State} (k : Nat) (h : step s = .next t) :
    Host.Core.run Sys2Proof.core (k + 1) s = Host.Core.run Sys2Proof.core k t := by
  have h' : Sys2Proof.core.step s = .next t := h
  simp only [Host.Core.run, h']

/-- A run whose first step faults stops with that fault. -/
theorem run_fault {s : State} {f : Fault} (k : Nat) (h : step s = .fault f) :
    Host.Core.run Sys2Proof.core (k + 1) s = .fault f := by
  have h' : Sys2Proof.core.step s = .fault f := h
  simp only [Host.Core.run, h']

/-- A run whose first step is refused stops with that refusal. -/
theorem run_refused {s : State} {r : Refusal} (k : Nat) (h : step s = .refused r) :
    Host.Core.run Sys2Proof.core (k + 1) s = .refused r := by
  have h' : Sys2Proof.core.step s = .refused r := h
  simp only [Host.Core.run, h']

/-- Commands after one that answers a next state go on from there. -/
theorem execAll_cons {i : Instr} {is : List Instr} {s t : State} (h : exec i s = .next t) :
    execAll (i :: is) s = execAll is t := by
  rw [execAll, h]

end Sys2Proof.Machine
end

