-- ==== Sys2Proof/Tests/Slice0.lean ====
section
/-!
SUPPORT. Tests. Expected values come from spec/95_test_vectors.md (W, V and P name its vectors) or are worked by hand from the rule
named. The `witness_` theorems show, for the statement each is named after, values that meet its hypotheses together.
-/

open Sys2Proof Sys2Proof.Machine

namespace Sys2Proof.Tests

/-! ### Well-formedness refuses what no encoding has -/

theorem test_crcCalc_too_long : (Instr.crcCalc (List.replicate 65536 0)).wellFormed = false := by
  rw [Instr.wellFormed, List.length_replicate]; rfl

theorem test_parseCrc_too_long : (Instr.parseCrc (List.replicate 65536 0)).wellFormed = false := by
  rw [Instr.wellFormed, List.length_replicate]; rfl

theorem test_parseSimple_too_long : (Instr.parseSimple (List.replicate 65536 0)).wellFormed = false := by
  rw [Instr.wellFormed, List.length_replicate]; rfl

theorem test_sumCalc_too_long : (Instr.sumCalc 1 1 1 (List.replicate 256 0)).wellFormed = false := by
  rw [Instr.wellFormed, List.length_replicate]; rfl

theorem test_buildCrc_too_long : (Instr.buildCrc 5 1 0 1 (List.replicate 256 0)).wellFormed = false := by
  rw [Instr.wellFormed, List.length_replicate]; rfl

theorem test_buildSimple_too_long : (Instr.buildSimple 7 1 1 1 (List.replicate 256 0)).wellFormed = false := by
  rw [Instr.wellFormed, List.length_replicate]; rfl

/-! ### Decoding: words written out from 30_encoding.md R79 to R82 -/

theorem test_decode_crcClr : decode [0b00010000, 0x11] = .command .crcClr 1 := by decide

theorem test_decode_crcByte : decode [0b00010001, 0b00101000] = .command (.crcByte 40) 2 := by decide

/-- P1 line 5. -/
theorem test_decode_crcCalc : decode [0b00010010, 3, 0, 0x28, 0x00, 0x01, 0xAA] = .command (.crcCalc [0x28, 0x00, 0x01]) 6 := by decide

/-- R54: the length's high byte is the second one. -/
theorem test_decode_length_high_byte : decode ([0x12, 0x01, 0x01] ++ List.replicate 257 7) =
    .command (.crcCalc (List.replicate 257 7)) 260 := by decide +kernel

theorem test_decode_sumClr : decode [0b00100000] = .command .sumClr 1 := by decide

theorem test_decode_sumByte : decode [0b00100001, 0xFE] = .command (.sumByte 254) 2 := by decide

/-- P2 line 9, with two data bytes. -/
theorem test_decode_sumCalc : decode [0b00100010, 2, 1, 254, 2, 8, 9, 7] = .command (.sumCalc 2 1 254 [8, 9]) 7 := by decide

/-- P3 line 1. -/
theorem test_decode_buildCrc : decode [0b00110000, 5, 2, 0, 0xE7, 2, 0xFF, 0x00] = .command (.buildCrc 5 2 0 231 [255, 0]) 8 := by
  decide

/-- P2 line 1. -/
theorem test_decode_buildSimple : decode [0b00110001, 7, 2, 1, 0xFE, 0] = .command (.buildSimple 7 2 1 254 []) 6 := by decide

theorem test_decode_parseCrc : decode [0b01000000, 5, 0, 0x28, 0x00, 0x46, 0x01, 0x3F] =
    .command (.parseCrc [0x28, 0x00, 0x46, 0x01, 0x3F]) 8 := by decide

theorem test_decode_parseSimple : decode [0b01000001, 1, 0, 0x28] = .command (.parseSimple [0x28]) 4 := by decide

/-- P5 line 2. -/
theorem test_decode_feed : decode [0b01010000, 3, 3, 0, 2, 0, 1, 0, 0, 9, 255, 8] =
    .command (.feed ⟨3, ⟨3, 0⟩, ⟨2, 0⟩, ⟨1, 0⟩, ⟨0, 9⟩, ⟨255, 8⟩⟩) 12 := by decide

theorem test_decode_fwdDist : decode [0b01010001, 0xFA, 0x03] = .command (.fwdDist 250 3) 3 := by decide

theorem test_decode_undefined : decode [0x77, 0x10] = .undefinedOp 0x77 := by decide

theorem test_decode_incomplete : decode [0x12, 0x02, 0x00, 0x12] = .incomplete := by decide

/-- A word of the table stands for the command with zero operand bytes, as long as its format makes it. -/
theorem test_table_feed : decodeTableWord 8 0x50 = some (.feed ⟨0, ⟨0, 0⟩, ⟨0, 0⟩, ⟨0, 0⟩, ⟨0, 0⟩, ⟨0, 0⟩⟩) := by decide

theorem test_table_crcByte : decodeTableWord 16 0x2811 = some (.crcByte 0x28) := by decide

/-! ### One step: section 2 and the programs of 95_test_vectors.md -/

/-- A state after reset with bytes on the command port. -/
def withBytes (bs : List Byte) : State := { State.reset with inputs := bs.map .byte }

/-- The last response after one step. -/
def answer (s : State) : Option Response :=
  match step s with
  | .next t => t.responses.getLast?
  | _ => none

/-- A snapshot of the vectors: event `e` has the record `(e mod 256, 0)`. -/
def snap (c : Nat) : EventSnapshot :=
  ⟨BitVec.ofNat 8 c, ⟨BitVec.ofNat 8 c, 0⟩, ⟨BitVec.ofNat 8 (c - 1), 0⟩, ⟨BitVec.ofNat 8 (c - 2), 0⟩, ⟨BitVec.ofNat 8 (c - 3), 0⟩,
    ⟨BitVec.ofNat 8 (c - 4), 0⟩⟩

/-- A tracking state whose last snapshot is `snap c`. -/
def tracking (c : Nat) : State :=
  { State.reset with initialized := true, lastCounter := BitVec.ofNat 8 c, history := [snap c] }

/-- An event item of the vectors. -/
def ev (c : Byte) : Output := .event ⟨c, 0⟩

/-- R102's example. -/
theorem test_crcClr : (match step { withBytes [0x10] with crcAcc := 0x3F46 } with | .next t => some t.crcAcc | _ => none) = some 0 := by
  decide +kernel

/-- P1 line 3. -/
theorem test_crcByte : answer { withBytes [0x11, 0x00] with crcAcc := 0xA56A } = some (.ok (.word 0x8F4F)) := by decide +kernel

/-- Section 2.1. -/
theorem test_crcCalc_ascii : answer (withBytes [0x12, 9, 0, 0x31, 0x32, 0x33, 0x34, 0x35, 0x36, 0x37, 0x38, 0x39]) =
    some (.ok (.word 0x31C3)) := by decide +kernel

theorem test_crcCalc_w1 : answer (withBytes [0x12, 3, 0, 0x28, 0x00, 0x01]) = some (.ok (.word 0x3F46)) := by decide +kernel

theorem test_sumClr : (match step { withBytes [0x20] with sumAcc := 0x01 } with | .next t => some t.sumAcc | _ => none) = some 0 := by
  decide +kernel

/-- Section 2.2, the fourth line of the stream. -/
theorem test_sumByte : answer { withBytes [0x21, 0xFE] with sumAcc := 0x03 } = some (.ok (.byte 0xFF)) := by decide +kernel

/-- R109: the carry out of bit 7 is discarded. -/
theorem test_sumByte_carry : answer { withBytes [0x21, 0x01] with sumAcc := 0xFF } = some (.ok (.byte 0x00)) := by decide +kernel

theorem test_sumCalc : answer (withBytes [0x22, 40, 1, 231, 2, 0xFF, 0xFF]) = some (.ok (.byte 240)) := by decide +kernel

theorem test_sumCalc_w3 : answer (withBytes [0x22, 1, 2, 0, 0]) = some (.ok (.byte 253)) := by decide +kernel

/-- P3 line 1. -/
theorem test_buildCrc : answer (withBytes [0x30, 5, 2, 0, 0xE7, 2, 0xFF, 0x00]) =
    some (.ok (.built (.crc 2 231 [255, 0] 0x8FB5) [0x02, 0x02, 0xB5, 0xE7, 0xFF, 0x00, 0x8F])) := by decide +kernel

/-- Section 2.3: flags 0x02. -/
theorem test_buildCrc_sv_only : answer (withBytes [0x30, 0x02, 0x00, 0x05, 0x00, 0x00]) = some (.buildError 0b0101) := by decide +kernel

/-- Section 2.3. -/
theorem test_buildSimple : answer (withBytes [0x31, 7, 2, 1, 0xE7, 2, 0xFF, 0x00]) =
    some (.ok (.built (.simple 2 1 231 [255, 0] 0x15) [0x02, 0x02, 0x01, 0xE7, 0xFF, 0x00, 0x15])) := by decide +kernel

/-- P3 line 5. -/
theorem test_buildSimple_zero_source : answer (withBytes [0x31, 0x07, 0x02, 0x00, 0xFE, 0x00]) = some (.buildError 0b1000) := by
  decide +kernel

/-- Section 2.6: the whole command is consumed. -/
theorem test_reserved_flags : step (withBytes [0x31, 0xF8, 0x02, 0x01, 0xFE, 0x00]) =
    .next { State.reset with responses := [.illegalOperation 0x31] } := by rfl

theorem test_parseCrc : answer (withBytes [0x40, 7, 0, 0x02, 0x02, 0xB5, 0xE7, 0xFF, 0x00, 0x8F]) =
    some (.ok (.parsed (.crc 2 231 [255, 0] 0x8FB5))) := by decide +kernel

/-- Section 2.3, wrong variant. -/
theorem test_parseCrc_wrong_variant : answer (withBytes [0x40, 7, 0, 0x02, 0x02, 0x01, 0xE7, 0xFF, 0x00, 0x15]) =
    some (.crcMismatch 0x8FB5 0x1501) := by decide +kernel

/-- Section 2.3: source 0 is accepted. -/
theorem test_parseSimple_zero_source : answer (withBytes [0x41, 5, 0, 1, 0, 0, 0, 0xFF]) =
    some (.ok (.parsed (.simple 1 0 0 [] 0xFF))) := by decide +kernel

theorem test_parseSimple_length : answer (withBytes [0x41, 5, 0, 2, 1, 1, 0xFE, 0xFF]) = some (.framingLengthMismatch 1 5) := by
  decide +kernel

/-- V3. -/
theorem test_feed_wrap : (State.feed { State.reset with initialized := true, lastCounter := 250, history := [snap 250] } 2 (snap 0)
    ⟨3, ⟨3, 0⟩, ⟨2, 0⟩, ⟨1, 0⟩, ⟨0, 0⟩, ⟨255, 0⟩⟩).responses =
    [.ok (.items [.loss 4 (snap 250) ⟨3, ⟨3, 0⟩, ⟨2, 0⟩, ⟨1, 0⟩, ⟨0, 0⟩, ⟨255, 0⟩⟩, ev 255, ev 0, ev 1, ev 2, ev 3])] := by decide +kernel

/-- P4 line 4, with HIST_N = 2: the loss, the events, and the ring without its oldest entry. -/
theorem test_feed_loss : State.feed { tracking 3 with history := [snap 1, snap 3] } 2 (snap 0) (snap 9) =
    { tracking 9 with history := [snap 3, snap 9],
                      responses := [.ok (.items [.loss 1 (snap 3) (snap 9), ev 5, ev 6, ev 7, ev 8, ev 9])] } := by decide +kernel

theorem test_fwdDist : answer (withBytes [0x51, 0xFA, 0x03]) = some (.ok (.byte 9)) := by decide +kernel

theorem test_undefined_op : step (withBytes [0x77, 0x10]) =
    .next { State.reset with inputs := [.byte 0x10], responses := [.illegalOperation 0x77] } := by rfl

/-- R241: reset discards the bytes of an incomplete command; the next byte is an op byte. -/
theorem test_reset_input : step { State.reset with crcAcc := 5, inputs := [.byte 0x11, .reset, .byte 0x10] } =
    .next { State.reset with inputs := [.byte 0x10] } := by rfl

theorem test_table_word_runs : answer (State.reset.withFetchWord 8 0x31) = some (.buildError 0b0111) := by decide +kernel

/-- The assembler: rows of R88 and section 3. -/
theorem test_assemble_build : assemble "BUILD.CRC dst=2, hdr=231, data=[0xFF, 0x00] ; P3" = some [0x30, 5, 2, 0, 0xE7, 2, 0xFF, 0] := by
  decide +kernel

theorem test_assemble_lines : assemble "FEED 9, [(9,0), (8,0), (7,0), (6,0), (5,0)]\n.byte 0x77\nSUM.CALC 1, 2, 0, []" =
    some [0x50, 9, 9, 0, 8, 0, 7, 0, 6, 0, 5, 0, 0x77, 0x22, 1, 2, 0, 0] := by decide +kernel

/-! ### Witnesses: each statement's hypotheses are met together -/

theorem witness_DecodeOfEncode : (Instr.crcCalc (List.replicate 65535 0)).wellFormed = true ∧
    (Instr.buildSimple 7 2 1 254 (List.replicate 255 0)).wellFormed = true := by
  rw [Instr.wellFormed, Instr.wellFormed, List.length_replicate, List.length_replicate]; exact ⟨rfl, rfl⟩

theorem witness_EncodeOfDecode : decode [0x51, 0xFA, 0x03, 0x10] = .command (.fwdDist 250 3) 3 := by decide

/-- Both ends of every range of undefined op bytes, and the op bytes next to them. -/
theorem witness_UndefinedOpByteIsIllegalOperation :
    ([0x00, 0x0F, 0x13, 0x1F, 0x23, 0x2F, 0x32, 0x3F, 0x42, 0x4F, 0x52, 0xFF] : List Byte).all (fun b => decide (UndefinedOpByte b)) = true ∧
    ([0x10, 0x12, 0x20, 0x22, 0x30, 0x31, 0x40, 0x41, 0x50, 0x51] : List Byte).all (fun b => decide (¬ UndefinedOpByte b)) = true ∧
    (withBytes [0x13, 0x10]).inputs = .byte 0x13 :: [.byte 0x10] := by decide

theorem witness_CommandLengthIsDecodedLength : decode [0x12, 1, 0, 9] = .command (.crcCalc [9]) 4 ∧ decode [0x12, 1, 0] = .incomplete := by
  decide

theorem witness_StepRunsDecodedCommand :
    decode (arrived (withBytes [0x51, 0xFA, 0x03, 0x10]).inputs) = .command (.fwdDist 250 3) 3 ∧ (Instr.fwdDist 250 3).wellFormed = true := by
  decide

theorem witness_PortRunsCommandsInOrder : ∀ i ∈ [Instr.crcClr, .crcByte 1, .feed (snap 1)], i.wellFormed = true := by decide

/-- First and last incomplete lengths of a command. -/
theorem witness_IncompleteCommandIsStuck : (Instr.crcCalc [0x12, 0x34]).wellFormed = true ∧ (encode (.crcCalc [0x12, 0x34])).length = 5 ∧
    (withBytes [0x12]).inputs = ((encode (.crcCalc [0x12, 0x34])).take 1).map .byte ∧
    (withBytes [0x12, 0x02, 0x00, 0x12]).inputs = ((encode (.crcCalc [0x12, 0x34])).take 4).map .byte := by decide

/-- No byte before the reset, and all but one. -/
theorem witness_ResetInputDiscardsIncompleteCommand : (Instr.crcByte 7).wellFormed = true ∧ (encode (.crcByte 7)).length = 2 ∧
    ([.reset, .byte 0x10] : List Input) = ((encode (.crcByte 7)).take 0).map .byte ++ .reset :: [.byte 0x10] ∧
    ([.byte 0x11, .reset] : List Input) = ((encode (.crcByte 7)).take 1).map .byte ++ .reset :: [] := by decide

theorem witness_CrcCalcAnswersCrc : (List.replicate 65535 (0 : Byte)).length ≤ 65535 ∧ ([] : List Byte).length ≤ 65535 :=
  ⟨le_of_eq List.length_replicate, by decide⟩

theorem witness_CrcLaws : ([1, 2] : List Byte).length = ([3, 4] : List Byte).length ∧ 0 < ([1, 2] : List Byte).length ∧
    1 < ([1, 2] : List Byte).length ∧ ([1, 2] : List Byte)[0]? ≠ some 2 ∧ ([1, 2] : List Byte)[1]? ≠ some 1 := by decide

theorem witness_SumByteAddsInAnyOrder :
    (0x00 : Byte) = BitVec.ofNat 8 ((({ State.reset with sumAcc := 0xFF } : State).sumAcc.toNat + (0x01 : Byte).toNat) % 256) ∧
    ([7, 1, 1, 2, 0] : List Byte).Perm ([2, BitVec.ofNat 8 ([7] : List Byte).length, 1, 0] ++ [7]) := by decide

/-- No data and the most data, for every statement with `x.length ≤ 255`. -/
theorem witness_data_lengths : ([] : List Byte).length ≤ 255 ∧ (List.replicate 255 (0 : Byte)).length ≤ 255 :=
  ⟨by decide, le_of_eq List.length_replicate⟩

theorem witness_BuildCompletesWithItsFieldsSet : (0b101 : Byte) &&& 0b11111000 = 0 ∧ (0b101 : Byte) &&& 0b101 = 0b101 ∧
    (0b111 : Byte) &&& 0b11111000 = 0 ∧ (0b111 : Byte) &&& 0b101 = 0b101 ∧ (0b111 : Byte) &&& 0b10 = 0b10 ∧ (1 : Byte) ≠ 0 := by decide

theorem witness_ReservedFlagBitsAreIllegalOperation : (8 : Byte) ≤ 8 ∧ (8 : Byte) ≤ 0xFF ∧
    (1 : Byte).toNat = ([9] : List Byte).length ∧
    (withBytes [0x30, 8, 2, 0, 1, 1, 9]).inputs = ([0x30, 8, 2, 0, 1, 1] ++ [9]).map .byte ++ [] ∧
    (withBytes [0x31, 0xFF, 2, 0, 1, 1, 9, 0x10]).inputs = ([0x31, 0xFF, 2, 0, 1, 1] ++ [9]).map .byte ++ [.byte 0x10] := by decide

/-- A CRC frame and a SIMPLE frame that parse, for every statement about a valid frame. -/
theorem witness_valid_frames (s : State) :
    exec (parseCommand .crc [0x28, 0x00, 0x46, 0x01, 0x3F]) s =
      .next { s with responses := s.responses ++ [.ok (.parsed (.crc 40 1 [] 0x3F46))] } ∧
    exec (parseCommand .simple [0x02, 0x00, 0x01, 0xFE, 0xFF]) s =
      .next { s with responses := s.responses ++ [.ok (.parsed (.simple 2 1 254 [] 0xFF))] } := by
  constructor
  · show s.complete (parse .crc [0x28, 0x00, 0x46, 0x01, 0x3F]) = _
    rw [State.complete_eq, show parse .crc [0x28, 0x00, 0x46, 0x01, 0x3F] = .ok (.parsed (.crc 40 1 [] 0x3F46)) by decide +kernel]
    rfl
  · show s.complete (parse .simple [0x02, 0x00, 0x01, 0xFE, 0xFF]) = _
    rw [State.complete_eq, show parse .simple [0x02, 0x00, 0x01, 0xFE, 0xFF] = .ok (.parsed (.simple 2 1 254 [] 0xFF)) by decide +kernel]
    rfl

/-- A changed byte at index 1 and at the first and last of the other indices. -/
theorem witness_SingleByteChangeIsDetected : ([0x28, 0x00, 0x46, 0x01, 0x3F] : List Byte).length = 5 ∧
    ([0x28, 0x00, 0x46, 0x01, 0x3F] : List Byte)[1]? ≠ some 1 ∧ ([0x28, 0x00, 0x46, 0x01, 0x3F] : List Byte)[0]? ≠ some 0x29 ∧
    ([0x28, 0x00, 0x46, 0x01, 0x3F] : List Byte)[4]? ≠ some 0x3E := by decide

theorem witness_SimpleFramesSumToZero (s : State) : exec (.buildSimple 7 2 1 254 []) s =
    .next { s with responses := s.responses ++ [.ok (.built (.simple 2 1 254 [] 0xFF) [0x02, 0x00, 0x01, 0xFE, 0xFF])] } ∧
    0 < ([0x02, 0x00, 0x01, 0xFE, 0xFF] : List Byte).length ∧ ([0x02, 0x00, 0x01, 0xFE, 0xFF] : List Byte)[0]? ≠ some 3 := by
  refine ⟨?_, by decide, by decide⟩
  show s.complete (build Opcode.buildSimple.byte .simple 7 2 1 (makeSimple 2 1 254 [])) = _
  rw [State.complete_eq, show build Opcode.buildSimple.byte .simple 7 2 1 (makeSimple 2 1 254 []) =
    .ok (.built (.simple 2 1 254 [] 0xFF) [0x02, 0x00, 0x01, 0xFE, 0xFF]) by decide +kernel]
  rfl

theorem witness_ParseRejectsShortInput : ([] : List Byte).length < 5 ∧ ([2, 2, 0xB5, 0xE7] : List Byte).length < 5 := by decide

theorem witness_ParseRejectsLengthMismatch : 5 ≤ ([0, 1, 0, 0, 0] : List Byte).length ∧ ([0, 1, 0, 0, 0] : List Byte)[1]? = some 1 ∧
    ([0, 1, 0, 0, 0] : List Byte).length ≠ 5 + (1 : Byte).toNat ∧ 260 < (List.replicate 261 (0 : Byte)).length := by
  rw [List.length_replicate]; decide

theorem witness_declared_lengths : (0 : Byte).toNat = ([] : List Byte).length ∧
    (255 : Byte).toNat = (List.replicate 255 (0 : Byte)).length :=
  ⟨rfl, List.length_replicate.symm⟩

theorem witness_ParseOfBuildRoundTrip : (0b101 : Byte).extractLsb' 3 5 = 0 ∧ (0b101 : Byte).getLsbD 0 = true ∧
    (0b101 : Byte).getLsbD 2 = true ∧ (0b111 : Byte).extractLsb' 3 5 = 0 ∧ (0b111 : Byte).getLsbD 0 = true ∧
    (0b111 : Byte).getLsbD 2 = true ∧ (0b111 : Byte).getLsbD 1 = true ∧ (1 : Byte) ≠ 0 := by decide

theorem witness_ErrorsChangeNothing (s : State) :
    exec (.parseCrc []) s = .next { s with responses := s.responses ++ [.framingTooShort 0] } ∧
    (Response.framingTooShort 0).status ≠ .ok ∧ decode (arrived (withBytes [0x77]).inputs) = .undefinedOp 0x77 :=
  ⟨rfl, by decide, by decide⟩

theorem witness_StatusesOfEachCommand (s : State) :
    exec (.buildCrc 2 0 5 0 []) s = .next { s with responses := s.responses ++ [.buildError 0b0101] } ∧
    exec (.buildSimple 0 0 0 0 []) s = .next { s with responses := s.responses ++ [.buildError 0b0111] } ∧
    Status.buildError ∈ statusesOf .buildCrc := ⟨rfl, rfl, by decide⟩

theorem tracking_inv (c : Nat) : (tracking c).inv := by
  refine ⟨by simp [tracking], fun _ => rfl, fun _ => ⟨Nat.le_refl 1, one_le_histN⟩⟩

theorem witness_StepKeepsReconcilerInvariants : ({ tracking 3 with inputs := [.byte 0x10] } : State).inv ∧
    step { tracking 3 with inputs := [.byte 0x10] } = .next { tracking 3 with responses := [.ok (.word 0)] } ∧
    exec .crcClr (tracking 3) = .next { tracking 3 with responses := [.ok (.word 0)] } := ⟨tracking_inv 3, rfl, rfl⟩

theorem witness_StepKeepsResponsesLegal : (∀ r ∈ ({ withBytes [0x10] with responses := [.buildError 1] } : State).responses, r.legal) ∧
    step { withBytes [0x10] with responses := [.buildError 1] } =
      .next { State.reset with responses := [.buildError 1, .ok (.word 0)] } :=
  ⟨fun r hr => by simp at hr; subst hr; decide, rfl⟩

theorem witness_FirstFeedSeeds : State.reset.initialized = false := rfl

theorem witness_FeedOfSameCounterDoesNothing : (tracking 4).initialized = true ∧
    ((snap 4).counter.toNat + 256 - (tracking 4).lastCounter.toNat) % 256 = 0 := by decide

/-- The differences 1, 5, 6 and 255, where the clauses meet and end. -/
theorem witness_FeedOfNewCounterReplays : (tracking 4).inv ∧ (tracking 4).initialized = true ∧
    (tracking 4).history.getLast? = some (snap 4) ∧
    [5, 9, 10, 259].map (fun c => ((snap c).counter.toNat + 256 - (tracking 4).lastCounter.toNat) % 256) = [1, 5, 6, 255] :=
  ⟨tracking_inv 4, rfl, rfl, by decide⟩

theorem witness_OnlyResetClearsInitialized : step { tracking 4 with inputs := [.reset] } = .next State.reset ∧
    (tracking 4).initialized = true ∧ State.reset.initialized = false ∧
    exec .crcClr (tracking 4) = .next { tracking 4 with responses := [.ok (.word 0)] } ∧ (∀ S, Instr.crcClr ≠ .feed S) ∧
    exec (.feed (snap 4)) (tracking 4) = .next { tracking 4 with responses := [.ok (.items [])] } :=
  ⟨rfl, rfl, rfl, rfl, by simp, rfl⟩

/-- Two states that differ in every element CRC.CLR and FWD.DIST do not read. -/
theorem witness_CommandsReadAndWriteOnlyTheirElements : (tracking 4).inv ∧ State.reset.inv ∧
    exec .crcClr (tracking 4) = .next { tracking 4 with responses := [.ok (.word 0)] } ∧
    exec .crcClr State.reset = .next { State.reset with responses := [.ok (.word 0)] } ∧
    exec (.fwdDist 3 9) State.reset = .next { State.reset with responses := [.ok (.byte 6)] } ∧
    exec (.fwdDist 3 9) { State.reset with responses := [.ok (.byte 6)] } =
      .next { State.reset with responses := [.ok (.byte 6), .ok (.byte 6)] } ∧
    (Instr.fwdDist 3 9).opcode ∉ [Opcode.crcClr, .crcByte, .sumClr, .sumByte, .feed] :=
  ⟨tracking_inv 4, by simp [State.inv], rfl, rfl, rfl, rfl, by decide⟩

theorem witness_OlderHistoryIsUnobservable : [snap 1, snap 3].getLast? = [snap 3].getLast? ∧ [snap 1, snap 3] ≠ [snap 3] := by decide

/-- The event log of the vectors. -/
def vectorLog (e : Nat) : EventRecord := ⟨BitVec.ofNat 8 e, 0⟩

theorem snap_isSnapshotOf (n : Nat) : IsSnapshotOf vectorLog n (snap n) := by
  refine ⟨rfl, fun i hi _ => ?_⟩
  simp only [Config.bufferCapacity] at hi
  match i, hi with
  | 0, _ => rfl
  | 1, _ => rfl
  | 2, _ => rfl
  | 3, _ => rfl
  | 4, _ => rfl

/-- Differences 5, 6 and 255. -/
theorem witness_FeedEmitsEventsByNumber : (tracking 4).initialized = true ∧ (tracking 4).history.getLast? = some (snap 4) ∧
    (tracking 4).lastCounter = BitVec.ofNat 8 4 ∧ 4 < 9 ∧ 9 - 4 < 256 ∧ IsSnapshotOf vectorLog 9 (snap 9) ∧ 10 - 4 < 256 ∧
    IsSnapshotOf vectorLog 10 (snap 10) ∧ 259 - 4 < 256 ∧ IsSnapshotOf vectorLog 259 (snap 259) :=
  ⟨rfl, rfl, rfl, by decide, by decide, snap_isSnapshotOf 9, by decide, snap_isSnapshotOf 10, by decide, snap_isSnapshotOf 259⟩

/-- P6's first snapshots and one 255 events later; 256 and 257 events between two snapshots for the last two clauses. -/
theorem witness_ExactlyOnceDelivery : State.reset.initialized = false ∧ IsSnapshotOf vectorLog 1 (snap 1) ∧
    SnapshotsInOrder vectorLog 1 [(3, snap 3), (3, snap 3), (8, snap 8), (263, snap 263)] ∧
    (tracking 4).initialized = true ∧ (tracking 4).lastCounter = BitVec.ofNat 8 4 ∧ (260 - 4) % 256 = 0 ∧
    IsSnapshotOf vectorLog 260 (snap 260) ∧ 256 ≤ 261 - 4 ∧ (261 - 4) % 256 ≠ 0 ∧ IsSnapshotOf vectorLog 261 (snap 261) := by
  refine ⟨rfl, snap_isSnapshotOf 1, ⟨by decide, by decide, snap_isSnapshotOf 3, by decide, by decide, snap_isSnapshotOf 3, by decide,
    by decide, snap_isSnapshotOf 8, by decide, by decide, snap_isSnapshotOf 263, trivial⟩, rfl, rfl, rfl, snap_isSnapshotOf 260, by decide,
    by decide, snap_isSnapshotOf 261⟩

/-- The least and the most bytes of each length field, and the fewest data bytes that are too many. -/
theorem witness_AssemblyLinesEncode : ([] : List Byte).length ≤ 255 ∧ (List.replicate 255 (0 : Byte)).length ≤ 255 ∧
    ([] : List Byte).length ≤ 65535 ∧ (List.replicate 65535 (0 : Byte)).length ≤ 65535 ∧
    255 < (List.replicate 256 (0 : Byte)).length := by
  rw [List.length_replicate, List.length_replicate, List.length_replicate]; decide

end Sys2Proof.Tests
end

/-! # Proofs for 10_state.md: what keeps the state's invariants, and what cannot be observed -/

/-! ### What the decoder answers -/

namespace Sys2Proof

theorem decodeB_ne_undefinedOp (mk : Byte → Instr) (bs : List Byte) (op : Byte) : decodeB mk bs ≠ .undefinedOp op := by
  unfold decodeB
  split <;> nofun

theorem decodeP_ne_undefinedOp (mk : Byte → Byte → Instr) (bs : List Byte) (op : Byte) : decodeP mk bs ≠ .undefinedOp op := by
  unfold decodeP
  split <;> nofun

theorem decodeL_ne_undefinedOp (mk : List Byte → Instr) (bs : List Byte) (op : Byte) : decodeL mk bs ≠ .undefinedOp op := by
  unfold decodeL
  split
  · split <;> nofun
  · nofun

theorem decodeM_ne_undefinedOp (mk : Byte → Byte → Byte → List Byte → Instr) (bs : List Byte) (op : Byte) :
    decodeM mk bs ≠ .undefinedOp op := by
  unfold decodeM
  split
  · split <;> nofun
  · nofun

theorem decodeBLD_ne_undefinedOp (mk : Byte → Byte → Byte → Byte → List Byte → Instr) (bs : List Byte) (op : Byte) :
    decodeBLD mk bs ≠ .undefinedOp op := by
  unfold decodeBLD
  split
  · split <;> nofun
  · nofun

theorem decodeS_ne_undefinedOp (mk : EventSnapshot → Instr) (bs : List Byte) (op : Byte) : decodeS mk bs ≠ .undefinedOp op := by
  unfold decodeS
  split <;> nofun

/-- A known op code is never answered as an undefined op byte, whatever its operands. -/
theorem decodeOperands_ne_undefinedOp (o : Opcode) (bs : List Byte) (op : Byte) : decodeOperands o bs ≠ .undefinedOp op := by
  cases o with
  | crcClr | sumClr => nofun
  | crcByte | sumByte => exact decodeB_ne_undefinedOp _ bs op
  | crcCalc | parseCrc | parseSimple => exact decodeL_ne_undefinedOp _ bs op
  | sumCalc => exact decodeM_ne_undefinedOp _ bs op
  | buildCrc | buildSimple => exact decodeBLD_ne_undefinedOp _ bs op
  | feed => exact decodeS_ne_undefinedOp _ bs op
  | fwdDist => exact decodeP_ne_undefinedOp _ bs op

/-- Operand bytes that decode give a byte sequence no longer than its length field can say (30_encoding.md R79, R86). -/
theorem wellFormed_of_decodeOperands {o : Opcode} {bs : List Byte} {i : Instr} {n : Nat}
    (h : decodeOperands o bs = .command i n) : i.wellFormed = true := by
  cases o with
  | crcClr | sumClr => cases h; rfl
  | crcByte | sumByte => obtain ⟨b, rest, -, rfl, -⟩ := decodeB_eq_command h; rfl
  | crcCalc | parseCrc | parseSimple =>
    obtain ⟨p, rest, -, rfl, -, hp⟩ := decodeL_eq_command h
    exact decide_eq_true hp
  | sumCalc =>
    obtain ⟨d, s, hd, x, rest, -, rfl, -, hx⟩ := decodeM_eq_command h
    exact decide_eq_true hx
  | buildCrc | buildSimple =>
    obtain ⟨flags, d, s, hd, x, rest, -, rfl, -, hx⟩ := decodeBLD_eq_command h
    exact decide_eq_true hx
  | feed => obtain ⟨S, rest, -, rfl, -⟩ := decodeS_eq_command h; rfl
  | fwdDist => obtain ⟨a, b, rest, -, rfl, -⟩ := decodeP_eq_command h; rfl

theorem wellFormed_of_decode {bs : List Byte} {i : Instr} {n : Nat} (h : decode bs = .command i n) : i.wellFormed = true := by
  unfold decode at h
  split at h
  · cases h
  · split at h
    · exact wellFormed_of_decodeOperands h
    · cases h

theorem ofByte_eq_none_of_decode {bs : List Byte} {op : Byte} (h : decode bs = .undefinedOp op) : Opcode.ofByte op = none := by
  unfold decode at h
  split at h
  · cases h
  · split at h
    · exact absurd h (decodeOperands_ne_undefinedOp _ _ _)
    · next hop => cases h; exact hop

end Sys2Proof

/-! ### What a command and a step can do -/

namespace Sys2Proof.Machine

/-- Every command but FEED writes at most the two checksum registers, and what it writes and answers depends on those two registers
alone (20_memory.md R58). -/
theorem exec_of_not_feed {i : Instr} (hi : ∀ S, i ≠ .feed S) (crc : Word16) (sum : Byte) :
    ∃ (crc' : Word16) (sum' : Byte) (r : Response), ∀ s : State, s.crcAcc = crc → s.sumAcc = sum →
      exec i s = .next (((s.setCrc crc').setSum sum').respond r) := by
  cases i with
  | crcClr => exact ⟨0x0000, sum, .ok (.word 0x0000), by rintro s rfl rfl; rfl⟩
  | crcByte b => exact ⟨crcStep crc b, sum, .ok (.word (crcStep crc b)), by rintro s rfl rfl; rfl⟩
  | crcCalc p => exact ⟨crc, sum, .ok (.word (crc16 p)), by rintro s rfl rfl; rfl⟩
  | sumClr => exact ⟨crc, 0x00, .ok (.byte 0x00), by rintro s rfl rfl; rfl⟩
  | sumByte b => exact ⟨crc, sum + b, .ok (.byte (neg8 (sum + b).toNat)), by rintro s rfl rfl; rfl⟩
  | sumCalc d src h x => exact ⟨crc, sum, .ok (.byte (simpleChecksum d src h x)), by rintro s rfl rfl; rfl⟩
  | buildCrc flags d src h x =>
    exact ⟨crc, sum, build Opcode.buildCrc.byte .crc flags d src (makeCrc d h x), by rintro s rfl rfl; exact s.complete_eq _⟩
  | buildSimple flags d src h x =>
    exact ⟨crc, sum, build Opcode.buildSimple.byte .simple flags d src (makeSimple d src h x),
      by rintro s rfl rfl; exact s.complete_eq _⟩
  | parseCrc f => exact ⟨crc, sum, parse .crc f, by rintro s rfl rfl; exact s.complete_eq _⟩
  | parseSimple f => exact ⟨crc, sum, parse .simple f, by rintro s rfl rfl; exact s.complete_eq _⟩
  | feed S => exact absurd rfl (hi S)
  | fwdDist a b => exact ⟨crc, sum, .ok (.byte (fwdDist a b)), by rintro s rfl rfl; rfl⟩

/-- FEED is the FEED algorithm on a ring of `HIST_N` snapshots. -/
theorem exec_feed (S : EventSnapshot) (s : State) :
    exec (.feed S) s = .next (s.feed Config.histN (Config.absentSnapshot s.responses.length) S) := rfl

/-- Every command but FEED leaves the reconciler alone. -/
theorem exec_keeps_reconciler {i : Instr} {s t : State} (hi : ∀ S, i ≠ .feed S) (h : exec i s = .next t) :
    t.initialized = s.initialized ∧ t.lastCounter = s.lastCounter ∧ t.history = s.history := by
  obtain ⟨crc', sum', r, hexec⟩ := exec_of_not_feed hi s.crcAcc s.sumAcc
  rw [hexec s rfl rfl] at h
  cases h
  exact ⟨rfl, rfl, rfl⟩

/-- A command is a FEED or is none. -/
theorem feed_or_not_feed (i : Instr) : (∃ S, i = .feed S) ∨ ∀ S, i ≠ .feed S := by
  by_cases h : ∃ S, i = .feed S
  · exact .inl h
  · exact .inr (not_exists.mp h)

theorem exec_completes (i : Instr) (s : State) : ∃ t, exec i s = .next t := by
  rcases feed_or_not_feed i with ⟨S, rfl⟩ | hi
  · exact ⟨_, exec_feed S s⟩
  · obtain ⟨crc', sum', r, hexec⟩ := exec_of_not_feed hi s.crcAcc s.sumAcc
    exact ⟨_, hexec s rfl rfl⟩

/-- All that a step to a next state can be: a command, an undefined op byte, or the reset input acting. -/
theorem step_next_cases {s t : State} (h : step s = .next t) :
    (∃ i n, decode (arrived s.inputs) = .command i n ∧ exec i (s.consume n) = .next t) ∨
    (∃ op, decode (arrived s.inputs) = .undefinedOp op ∧ t = s.undefinedOp op) ∨
    (∃ rest, s.inputs = (arrived s.inputs).map .byte ++ .reset :: rest ∧ t = s.applyReset rest) := by
  rcases step_cases s with ⟨i, n, hd, hs⟩ | ⟨op, hd, hs⟩ | ⟨-, hs⟩
  · exact .inl ⟨i, n, hd, hs ▸ h⟩
  · rw [hs] at h
    cases h
    exact .inr (.inl ⟨op, hd, rfl⟩)
  · rw [hs] at h
    rcases s.await_cases with ⟨rest, hin, ha⟩ | ⟨-, ha⟩
    · rw [ha] at h
      cases h
      exact .inr (.inr ⟨rest, hin, rfl⟩)
    · rw [ha] at h
      split at h <;> cases h

/-! ### FEED, one equation per case -/

theorem State.feed_of_uninitialized {s : State} (hi : s.initialized = false) (cap : Nat) (absent S : EventSnapshot) :
    s.feed cap absent S = (s.accept cap [] S).respondOk (.items []) := if_pos hi

theorem State.feed_of_same_counter {s : State} {S : EventSnapshot} (hi : s.initialized = true) (hc : S.counter = s.lastCounter)
    (cap : Nat) (absent : EventSnapshot) : s.feed cap absent S = s.respondOk (.items []) := by
  simpa [hi, hc] using s.feed_cases cap absent S

theorem State.feed_of_new_counter {s : State} {S : EventSnapshot} (hi : s.initialized = true) (hc : S.counter ≠ s.lastCounter)
    (cap : Nat) (absent : EventSnapshot) :
    s.feed cap absent S = (s.accept cap s.history S).respondOk
      (.items (feedItems (fwdDist s.lastCounter S.counter).toNat (newest absent s.history) S)) := by
  simpa [hi, hc] using s.feed_cases cap absent S

/-- Every FEED leaves the reconciler initialized (10_state.md R23). -/
theorem State.feed_initialized (s : State) (cap : Nat) (absent S : EventSnapshot) : (s.feed cap absent S).initialized = true := by
  rcases s.feed_cases cap absent S with ⟨-, hf⟩ | ⟨hi, -, hf⟩ | ⟨-, -, hf⟩
  · rw [hf]; rfl
  · rw [hf]; exact hi
  · rw [hf]; rfl

/-! ### The reconciler's invariants (R27) -/

/-- R27 speaks of the reconciler's three elements alone. -/
theorem State.inv_congr {s t : State} (h : t.initialized = s.initialized ∧ t.lastCounter = s.lastCounter ∧ t.history = s.history)
    (hinv : s.inv) : t.inv := by
  obtain ⟨hinit, hlast, hhist⟩ := h
  rw [State.inv, hinit, hlast, hhist]
  exact hinv

/-- Accepting a snapshot gives the invariants, whatever ring it is pushed on. -/
theorem State.accept_inv (s : State) (h : List EventSnapshot) (S : EventSnapshot) : (s.accept Config.histN h S).inv := by
  have hlast : (push Config.histN h S).getLast? = some S := push_getLast? one_le_histN h S
  have hne : push Config.histN h S ≠ [] := by
    intro he
    simp [he] at hlast
  refine ⟨?_, fun _ => ?_, fun _ => ⟨?_, push_length_le _ h S⟩⟩
  · simp [hne]
  · rw [accept_history, hlast]
    rfl
  · exact List.length_pos_of_ne_nil hne

theorem State.applyReset_inv (s : State) (rest : List Input) : (s.applyReset rest).inv := by
  simp [State.inv]

theorem State.feed_keeps_inv {s : State} (hinv : s.inv) (absent S : EventSnapshot) : (s.feed Config.histN absent S).inv := by
  rcases s.feed_cases Config.histN absent S with ⟨-, hf⟩ | ⟨-, -, hf⟩ | ⟨-, -, hf⟩
  · rw [hf]; exact s.accept_inv [] S
  · rw [hf]; exact hinv
  · rw [hf]; exact s.accept_inv s.history S

theorem exec_keeps_inv {i : Instr} {s t : State} (hinv : s.inv) (h : exec i s = .next t) : t.inv := by
  rcases feed_or_not_feed i with ⟨S, rfl⟩ | hi
  · rw [exec_feed] at h
    cases h
    exact State.feed_keeps_inv hinv _ S
  · exact State.inv_congr (exec_keeps_reconciler hi h) hinv

theorem step_keeps_inv {s t : State} (hinv : s.inv) (h : step s = .next t) : t.inv := by
  rcases step_next_cases h with ⟨i, n, -, he⟩ | ⟨op, -, rfl⟩ | ⟨rest, -, rfl⟩
  · exact exec_keeps_inv (s := s.consume n) hinv he
  · exact State.inv_congr (s := s) ⟨rfl, rfl, rfl⟩ hinv
  · exact s.applyReset_inv rest

/-- Settles O45: FEED gives the invariants whenever it writes, every other command leaves the reconciler alone, and reset empties it. -/
theorem stepKeepsReconcilerInvariants : Obligations.StepKeepsReconcilerInvariants :=
  ⟨fun _ _ hinv h => step_keeps_inv hinv h, fun _ _ _ hinv h => exec_keeps_inv hinv h⟩

/-! ### The legality of responses (R31, R32, R36, R210) -/

theorem makeCrc_legal (d h : Byte) {x : List Byte} (hx : x.length ≤ Config.dataMax) : (makeCrc d h x).legal := ⟨hx, rfl⟩

theorem makeSimple_legal (d s h : Byte) {x : List Byte} (hx : x.length ≤ Config.dataMax) : (makeSimple d s h x).legal := ⟨hx, rfl⟩

theorem build_legal {op : Byte} {m : Message} (hop : op = Opcode.buildCrc.byte ∨ op = Opcode.buildSimple.byte) (hm : m.legal)
    (v : Variant) (flags d s : Byte) : (build op v flags d s m).legal := by
  rcases build_cases op v flags d s m with ⟨-, hb⟩ | ⟨-, hmask, hb⟩ | ⟨-, -, hb⟩
  · rw [hb]; exact .inr hop
  · rw [hb]; exact hmask
  · rw [hb]; exact ⟨hm, rfl⟩

/-- The data a frame declares is at most what its length byte can say. -/
theorem frameData_length_le (f : List Byte) : (frameData f).length ≤ Config.dataMax :=
  (List.length_take_le _ _).trans (Nat.le_of_lt_succ (declaredLength f).isLt)

theorem checkCrc_legal (f : List Byte) : (checkCrc f).legal := by
  unfold checkCrc
  extract_lets expected received
  split
  · next hne => exact hne
  · exact makeCrc_legal _ _ (frameData_length_le f)

theorem checkSimple_legal (f : List Byte) : (checkSimple f).legal := by
  unfold checkSimple
  extract_lets expected received
  split
  · next hne => exact hne
  · exact makeSimple_legal _ _ _ (frameData_length_le f)

theorem parseFrame_legal {f : List Byte} {checked : Response} (hf : f.length ≤ Config.byteSeqMax) (hc : checked.legal) :
    (parseFrame f checked).legal := by
  rcases parseFrame_cases f checked with ⟨h5, hp⟩ | ⟨h5, hlen, hp⟩ | ⟨-, -, hp⟩
  · rw [hp]; exact h5
  · rw [hp]; exact ⟨h5, hf, hlen⟩
  · rw [hp]; exact hc

/-- A replay emits events only. -/
theorem event_of_mem_replay {k : Nat} {S : EventSnapshot} {o : Output} (h : o ∈ replay k S) : ∃ r, o = .event r := by
  obtain ⟨r, -, rfl⟩ := List.mem_map.mp h
  exact ⟨r, rfl⟩

theorem replay_all_not_isLoss (k : Nat) (S : EventSnapshot) : (replay k S).all (!·.isLoss) = true := by
  rw [List.all_eq_true]
  intro o ho
  obtain ⟨r, rfl⟩ := event_of_mem_replay ho
  rfl

theorem replay_length_le (k : Nat) (S : EventSnapshot) : (replay k S).length ≤ k := by
  simp only [replay, List.length_map, List.length_reverse]
  exact List.length_take_le _ _

/-- A replay of at most 5 records is a legal list of items. -/
theorem replay_itemsLegal {k : Nat} (hk : k ≤ Config.bufferCapacity) (S : EventSnapshot) : itemsLegal (replay k S) := by
  refine ⟨?_, ?_, ?_⟩
  · exact (List.length_filter_le _ _).trans ((replay_length_le k S).trans hk)
  · exact List.all_eq_true.mpr fun o ho => List.all_eq_true.mp (replay_all_not_isLoss k S) o (List.mem_of_mem_tail ho)
  · intro o ho
    obtain ⟨r, rfl⟩ := event_of_mem_replay ho
    trivial

/-- The items of a FEED are legal for every 8-bit distance: a loss counts at most 255 - 5 events (R36, R61). -/
theorem feedItems_itemsLegal {diff : Nat} (hd : diff < 256) (P S : EventSnapshot) : itemsLegal (feedItems diff P S) := by
  obtain ⟨hevents, -, hlegal⟩ := replay_itemsLegal (Nat.min_le_right diff Config.bufferCapacity) S
  unfold feedItems lossItems
  split
  · next hlt =>
    refine ⟨hevents, replay_all_not_isLoss _ S, ?_⟩
    rintro o (_ | ⟨_, ho⟩)
    · simp only [Config.bufferCapacity] at hlt ⊢
      constructor <;> omega
    · exact hlegal o ho
  · exact replay_itemsLegal (Nat.min_le_right diff Config.bufferCapacity) S

/-- A FEED adds one legal response. -/
theorem State.feed_responds_legal (s : State) (cap : Nat) (absent S : EventSnapshot) :
    ∃ r : Response, (s.feed cap absent S).responses = s.responses ++ [r] ∧ r.legal := by
  have hnone : itemsLegal [] := by simp [itemsLegal]
  rcases s.feed_cases cap absent S with ⟨-, hf⟩ | ⟨-, -, hf⟩ | ⟨-, -, hf⟩
  · exact ⟨_, by rw [hf]; rfl, hnone⟩
  · exact ⟨_, by rw [hf]; rfl, hnone⟩
  · exact ⟨_, by rw [hf]; rfl, feedItems_itemsLegal (BitVec.isLt _) _ S⟩

/-- A completed command whose response is legal has added one legal response. -/
theorem State.complete_responds_legal {s t : State} {r : Response} (hr : r.legal) (h : s.complete r = .next t) :
    ∃ r : Response, t.responses = s.responses ++ [r] ∧ r.legal := by
  rw [State.complete_eq] at h
  cases h
  exact ⟨r, rfl, hr⟩

/-- Every well-formed command adds one legal response. -/
theorem exec_responds_legal {i : Instr} {s t : State} (hw : i.wellFormed = true) (h : exec i s = .next t) :
    ∃ r : Response, t.responses = s.responses ++ [r] ∧ r.legal := by
  cases i with
  | crcClr | crcByte | crcCalc | sumClr | sumByte | sumCalc | fwdDist => cases h; exact ⟨_, rfl, trivial⟩
  | buildCrc flags d src hd x =>
    exact State.complete_responds_legal (build_legal (.inl rfl) (makeCrc_legal d hd (of_decide_eq_true hw)) _ _ _ _) h
  | buildSimple flags d src hd x =>
    exact State.complete_responds_legal (build_legal (.inr rfl) (makeSimple_legal d src hd (of_decide_eq_true hw)) _ _ _ _) h
  | parseCrc f => exact State.complete_responds_legal (parseFrame_legal (of_decide_eq_true hw) (checkCrc_legal f)) h
  | parseSimple f => exact State.complete_responds_legal (parseFrame_legal (of_decide_eq_true hw) (checkSimple_legal f)) h
  | feed S => cases h; exact s.feed_responds_legal _ _ S

/-- A step adds at most one response, and a legal one: only decoded, hence well-formed, commands run. -/
theorem step_responds_legal {s t : State} (h : step s = .next t) :
    t.responses = s.responses ∨ ∃ r : Response, t.responses = s.responses ++ [r] ∧ r.legal := by
  rcases step_next_cases h with ⟨i, n, hd, he⟩ | ⟨op, hd, rfl⟩ | ⟨rest, -, rfl⟩
  · exact .inr (exec_responds_legal (s := s.consume n) (wellFormed_of_decode hd) he)
  · exact .inr ⟨_, rfl, .inl (ofByte_eq_none_of_decode hd)⟩
  · exact .inl rfl

/-- Settles O46: a step only adds to the record of responses, and what it adds is legal. -/
theorem stepKeepsResponsesLegal : Obligations.StepKeepsResponsesLegal := by
  intro s t hs h r hr
  rcases step_responds_legal h with ht | ⟨r', ht, hr'⟩
  · exact hs r (ht ▸ hr)
  · rw [ht, List.mem_append, List.mem_singleton] at hr
    rcases hr with hr | rfl
    · exact hs r hr
    · exact hr'

/-! ### The initialized flag (R23) -/

/-- No command clears the flag. -/
theorem exec_keeps_initialized {i : Instr} {s t : State} (hs : s.initialized = true) (h : exec i s = .next t) :
    t.initialized = true := by
  rcases feed_or_not_feed i with ⟨S, rfl⟩ | hi
  · rw [exec_feed] at h
    cases h
    exact s.feed_initialized _ _ S
  · obtain ⟨hinit, -, -⟩ := exec_keeps_reconciler hi h
    exact hinit.trans hs

/-- Settles O52: of the three things a step can be, only the reset input leaves an initialized reconciler uninitialized. -/
theorem onlyResetClearsInitialized : Obligations.OnlyResetClearsInitialized := by
  refine ⟨rfl, ?_, ?_, ?_⟩
  · intro i s t h hi
    obtain ⟨hinit, -, -⟩ := exec_keeps_reconciler hi h
    exact hinit
  · intro S s t h
    rw [exec_feed] at h
    cases h
    exact s.feed_initialized _ _ S
  · intro s t h hs ht
    rcases step_next_cases h with ⟨i, n, -, he⟩ | ⟨op, -, rfl⟩ | hreset
    · have hinit : t.initialized = true := exec_keeps_initialized (s := s.consume n) hs he
      exact absurd (hinit.symm.trans ht) nofun
    · exact absurd (hs.symm.trans ht) nofun
    · exact hreset

/-! ### What no list of commands can observe -/

/-- Two related states run any list of commands to related states, if every single command does so. -/
theorem execAll_related {R : State → State → Prop}
    (hstep : ∀ (i : Instr) (s s' : State), R s s' → ∃ t t', exec i s = .next t ∧ exec i s' = .next t' ∧ R t t')
    (is : List Instr) {s s' : State} (hR : R s s') : ∃ t t', execAll is s = .next t ∧ execAll is s' = .next t' ∧ R t t' := by
  induction is generalizing s s' with
  | nil => exact ⟨s, s', rfl, rfl, hR⟩
  | cons i is ih =>
    obtain ⟨t, t', ht, ht', hRt⟩ := hstep i s s' hR
    rw [execAll_cons ht, execAll_cons ht']
    exact ih hRt

/-- The second state is the first with another ring that has the same newest entry. -/
def SameButOlderHistory (s s' : State) : Prop := ∃ h, s' = { s with history := h } ∧ s.history.getLast? = h.getLast?

theorem SameButOlderHistory.responses_eq {s s' : State} (h : SameButOlderHistory s s') : s.responses = s'.responses := by
  obtain ⟨h', rfl, -⟩ := h
  rfl

/-- `newest` reads the last entry alone. -/
theorem newest_congr {h h' : List EventSnapshot} (hl : h.getLast? = h'.getLast?) (absent : EventSnapshot) :
    newest absent h = newest absent h' := by
  rw [newest, newest, List.getLastD_eq_getLast?, List.getLastD_eq_getLast?, hl]

/-- FEED reads the newest entry alone, and pushes the same snapshot on both rings. -/
theorem State.feed_sameButOlderHistory {s s' : State} (hR : SameButOlderHistory s s') {cap : Nat} (hc : 1 ≤ cap)
    (absent S : EventSnapshot) : SameButOlderHistory (s.feed cap absent S) (s'.feed cap absent S) := by
  obtain ⟨h', rfl, hl⟩ := hR
  rcases s.feed_cases cap absent S with ⟨hi, hf⟩ | ⟨hi, hcnt, hf⟩ | ⟨hi, hcnt, hf⟩
  · rw [hf, State.feed_of_uninitialized (s := { s with history := h' }) hi]
    exact ⟨push cap [] S, rfl, rfl⟩
  · rw [hf, State.feed_of_same_counter (s := { s with history := h' }) hi hcnt]
    exact ⟨h', rfl, hl⟩
  · rw [hf, State.feed_of_new_counter (s := { s with history := h' }) hi hcnt, newest_congr hl]
    exact ⟨push cap h' S, rfl, (push_getLast? hc _ S).trans (push_getLast? hc h' S).symm⟩

theorem exec_sameButOlderHistory (i : Instr) (s s' : State) (hR : SameButOlderHistory s s') :
    ∃ t t', exec i s = .next t ∧ exec i s' = .next t' ∧ SameButOlderHistory t t' := by
  rcases feed_or_not_feed i with ⟨S, rfl⟩ | hi
  · refine ⟨_, _, exec_feed S s, exec_feed S s', ?_⟩
    rw [hR.responses_eq]
    exact State.feed_sameButOlderHistory hR one_le_histN _ S
  · obtain ⟨h', rfl, hl⟩ := hR
    obtain ⟨crc', sum', r, hexec⟩ := exec_of_not_feed hi s.crcAcc s.sumAcc
    exact ⟨_, _, hexec s rfl rfl, hexec { s with history := h' } rfl rfl, h', rfl, hl⟩

/-- Settles O54: being equal but for the older history entries is kept by every command, and such states have given the same
responses. -/
theorem olderHistoryIsUnobservable : Obligations.OlderHistoryIsUnobservable := by
  intro is s h₁ h₂ hl
  have hR : SameButOlderHistory { s with history := h₁ } { s with history := h₂ } := ⟨h₂, rfl, hl⟩
  obtain ⟨t₁, t₂, ht₁, ht₂, hRt⟩ := execAll_related exec_sameButOlderHistory is hR
  exact ⟨t₁, t₂, ht₁, ht₂, hRt.responses_eq⟩

/-- The states are equal, or neither is initialized and they differ at most in `lastCounter`. -/
def SameButUnreadCounter (s s' : State) : Prop := s' = s ∨ s.initialized = false ∧ ∃ c, s' = { s with lastCounter := c }

theorem SameButUnreadCounter.responses_eq {s s' : State} (h : SameButUnreadCounter s s') : s.responses = s'.responses := by
  rcases h with rfl | ⟨-, c, rfl⟩ <;> rfl

/-- The first FEED overwrites `lastCounter` without reading it; no other command touches it. -/
theorem exec_sameButUnreadCounter (i : Instr) (s s' : State) (hR : SameButUnreadCounter s s') :
    ∃ t t', exec i s = .next t ∧ exec i s' = .next t' ∧ SameButUnreadCounter t t' := by
  rcases hR with rfl | ⟨hinit, c, rfl⟩
  · obtain ⟨t, ht⟩ := exec_completes i s'
    exact ⟨t, t, ht, ht, .inl rfl⟩
  · rcases feed_or_not_feed i with ⟨S, rfl⟩ | hi
    · refine ⟨_, _, exec_feed S s, exec_feed S { s with lastCounter := c }, .inl ?_⟩
      rw [State.feed_of_uninitialized hinit, State.feed_of_uninitialized (s := { s with lastCounter := c }) hinit]
      rfl
    · obtain ⟨crc', sum', r, hexec⟩ := exec_of_not_feed hi s.crcAcc s.sumAcc
      exact ⟨_, _, hexec s rfl rfl, hexec { s with lastCounter := c } rfl rfl, .inr ⟨hinit, c, rfl⟩⟩

/-- Settles O55: while the reconciler is uninitialized the states stay equal but for `lastCounter`, and from the first FEED on they are
equal. -/
theorem uninitializedCounterIsUnobservable : Obligations.UninitializedCounterIsUnobservable := by
  intro is s c hinit
  have hR : SameButUnreadCounter s { s with lastCounter := c } := .inr ⟨hinit, c, rfl⟩
  obtain ⟨t₁, t₂, ht₁, ht₂, hRt⟩ := execAll_related exec_sameButUnreadCounter is hR
  exact ⟨t₁, t₂, ht₁, ht₂, hRt.responses_eq⟩

end Sys2Proof.Machine

/-! # Proofs for 20_memory.md: commands on the port, and the two bytes of a CRC -/

/-! ### Decoding an encoded command (30_encoding.md R79) -/

namespace Sys2Proof

theorem decodeL_encode (mk : List Byte → Instr) {p : List Byte} (hp : p.length ≤ Config.byteSeqMax) (rest : List Byte) :
    decodeL mk (encodeLengthL p.length ++ p ++ rest) = .command (mk p) (3 + p.length) := by
  simp [encodeLengthL, decodeL, lengthL_encode hp]

theorem decodeM_encode (mk : Byte → Byte → Byte → List Byte → Instr) (d s h : Byte) {x : List Byte}
    (hx : x.length ≤ Config.dataMax) (rest : List Byte) :
    decodeM mk ([d, s, h, BitVec.ofNat 8 x.length] ++ x ++ rest) = .command (mk d s h x) (5 + x.length) := by
  simp only [List.cons_append, List.nil_append, decodeM, toNat_lengthByte hx]
  simp

theorem decodeBLD_encode (mk : Byte → Byte → Byte → Byte → List Byte → Instr) (flags d s h : Byte) {x : List Byte}
    (hx : x.length ≤ Config.dataMax) (rest : List Byte) :
    decodeBLD mk ([flags, d, s, h, BitVec.ofNat 8 x.length] ++ x ++ rest) = .command (mk flags d s h x) (6 + x.length) := by
  simp only [List.cons_append, List.nil_append, decodeBLD, toNat_lengthByte hx]
  simp

/-- The operand bytes of a well-formed command are read back, whatever follows them. -/
theorem decodeOperands_encodeOperands {i : Instr} (hw : i.wellFormed = true) (rest : List Byte) :
    decodeOperands i.opcode (encodeOperands i ++ rest) = .command i (1 + (encodeOperands i).length) := by
  cases i with
  | crcClr | crcByte | sumClr | sumByte | feed | fwdDist => rfl
  | crcCalc p | parseCrc p | parseSimple p =>
    refine (decodeL_encode _ (of_decide_eq_true hw) rest).trans (congrArg _ ?_)
    simp only [encodeOperands, encodeLengthL, List.length_append, List.length_cons, List.length_nil]
    omega
  | sumCalc d s h x =>
    refine (decodeM_encode _ d s h (of_decide_eq_true hw) rest).trans (congrArg _ ?_)
    simp only [encodeOperands, List.length_append, List.length_cons, List.length_nil]
    omega
  | buildCrc flags d s h x | buildSimple flags d s h x =>
    refine (decodeBLD_encode _ flags d s h (of_decide_eq_true hw) rest).trans (congrArg _ ?_)
    simp only [encodeOperands, List.length_append, List.length_cons, List.length_nil]
    omega

theorem decode_encode_append {i : Instr} (hw : i.wellFormed = true) (rest : List Byte) :
    decode (encode i ++ rest) = .command i (encode i).length := by
  simp only [encode, List.cons_append, decode, Opcode.ofByte_byte, decodeOperands_encodeOperands hw, List.length_cons,
    Nat.add_comm 1]

end Sys2Proof

/-! ### Running the commands on the port (R60, 30_encoding.md R77) -/

namespace Sys2Proof.Machine

theorem encodeInputs_cons (i : Instr) (is : List Instr) :
    encodeInputs (i :: is) = (encode i).map .byte ++ encodeInputs is := by
  simp [encodeInputs]

theorem step_of_decode_command {s : State} {i : Instr} {n : Nat} (h : decode (arrived s.inputs) = .command i n) :
    step s = exec i (s.consume n) := by
  rw [step, h]

/-- A step takes exactly the encoded command at the front of the port and executes it. -/
theorem step_encode_append {i : Instr} (hw : i.wellFormed = true) (s : State) (rest : List Input) :
    step { s with inputs := (encode i).map .byte ++ rest } = exec i { s with inputs := rest } := by
  have hd : decode (arrived ((encode i).map .byte ++ rest)) = .command i (encode i).length := by
    rw [arrived_bytes_append]
    exact decode_encode_append hw _
  have hdrop : ((encode i).map Input.byte ++ rest).drop (encode i).length = rest :=
    List.drop_left' (List.length_map _)
  rw [step_of_decode_command hd, State.consume, hdrop]

/-- FEED neither reads nor writes the port. -/
theorem State.feed_withInputs (s : State) (cap : Nat) (absent S : EventSnapshot) (l : List Input) :
    { s with inputs := l }.feed cap absent S = { s.feed cap absent S with inputs := l } := by
  rcases s.feed_cases cap absent S with ⟨hi, hf⟩ | ⟨hi, hc, hf⟩ | ⟨hi, hc, hf⟩
  · rw [hf, State.feed_of_uninitialized (s := { s with inputs := l }) hi]
    rfl
  · rw [hf, State.feed_of_same_counter (s := { s with inputs := l }) hi hc]
    rfl
  · rw [hf, State.feed_of_new_counter (s := { s with inputs := l }) hi hc]
    rfl

/-- A command neither reads nor writes the port: it does the same whatever waits there, and leaves it there. -/
theorem exec_withInputs (i : Instr) (s : State) :
    ∃ t : State, ∀ l : List Input, exec i { s with inputs := l } = .next { t with inputs := l } := by
  rcases feed_or_not_feed i with ⟨S, rfl⟩ | hi
  · refine ⟨s.feed Config.histN (Config.absentSnapshot s.responses.length) S, fun l => ?_⟩
    rw [exec_feed, State.feed_withInputs]
  · obtain ⟨crc', sum', r, hexec⟩ := exec_of_not_feed hi s.crcAcc s.sumAcc
    exact ⟨((s.setCrc crc').setSum sum').respond r, fun l => hexec { s with inputs := l } rfl rfl⟩

/-- Settles O8, by induction on the commands: each step takes one command off the port and executes it, and the command leaves the
commands behind it where they stand. -/
theorem portRunsCommandsInOrder : Obligations.PortRunsCommandsInOrder := by
  intro is s rest hw
  induction is generalizing s with
  | nil => rfl
  | cons i is ih =>
    obtain ⟨hi, his⟩ := List.forall_mem_cons.mp hw
    obtain ⟨t, ht⟩ := exec_withInputs i s
    have hstep : step { s with inputs := encodeInputs (i :: is) ++ rest } = .next { t with inputs := encodeInputs is ++ rest } := by
      rw [encodeInputs_cons, List.append_assoc, step_encode_append hi, ht]
    have hlater : execAll (i :: is) { s with inputs := rest } = execAll is { t with inputs := rest } := execAll_cons (ht rest)
    exact (run_next is.length hstep).trans ((ih t his).trans hlater.symm)

/-! ### The two bytes of a CRC (R53) -/

theorem toNat_crcMSB (c : Word16) : (crcMSB c).toNat = c.toNat / 256 := by
  have hc := c.isLt
  rw [crcMSB, BitVec.extractLsb'_toNat, Nat.shiftRight_eq_div_pow]
  omega

theorem toNat_crcLSB (c : Word16) : (crcLSB c).toNat = c.toNat % 256 := by
  rw [crcLSB, BitVec.extractLsb'_toNat, Nat.shiftRight_zero]

theorem toNat_joinCrc (msb lsb : Byte) : (joinCrc msb lsb).toNat = msb.toNat * 256 + lsb.toNat := by
  have hmsb := msb.isLt
  have hlsb := lsb.isLt
  rw [joinCrc, BitVec.toNat_ofNat]
  omega

theorem joinCrc_crcMSB_crcLSB (c : Word16) : joinCrc (crcMSB c) (crcLSB c) = c := by
  apply BitVec.eq_of_toNat_eq
  rw [toNat_joinCrc, toNat_crcMSB, toNat_crcLSB, Nat.div_add_mod']

/-- Settles O32: the two bytes are the quotient and the remainder by 256, from which a number is put together again. -/
theorem crcBytesSplitAndJoin : Obligations.CrcBytesSplitAndJoin :=
  ⟨fun c => ⟨toNat_crcMSB c, toNat_crcLSB c, joinCrc_crcMSB_crcLSB c⟩, toNat_joinCrc,
    fun _ _ _ _ => ⟨rfl, List.getLast?_concat⟩⟩

end Sys2Proof.Machine

/-! # Proofs for 30_encoding.md: the decoder and the encoder, the step, the streams and frames -/

/-! ### Commands and their bytes (R79, R83 to R86) -/

namespace Sys2Proof

/-- Settles O1: a well-formed command's operand bytes are read back by the operand decoder of its op code. -/
theorem decodeOfEncode : Obligations.DecodeOfEncode := fun _ rest hw => decode_encode_append hw rest

/-- Operand bytes that decode begin with the encoding of the operands read. -/
theorem decodeOperands_eq_command {o : Opcode} {bs : List Byte} {i : Instr} {n : Nat} (h : decodeOperands o bs = .command i n) :
    i.opcode = o ∧ ∃ rest, bs = encodeOperands i ++ rest := by
  cases o with
  | crcClr | sumClr => cases h; exact ⟨rfl, bs, rfl⟩
  | crcByte | sumByte => obtain ⟨b, rest, hbs, rfl, -⟩ := decodeB_eq_command h; exact ⟨rfl, rest, hbs⟩
  | crcCalc | parseCrc | parseSimple =>
    obtain ⟨p, rest, hbs, rfl, -, -⟩ := decodeL_eq_command h
    exact ⟨rfl, rest, hbs⟩
  | sumCalc =>
    obtain ⟨d, s, hd, x, rest, hbs, rfl, -, -⟩ := decodeM_eq_command h
    exact ⟨rfl, rest, hbs⟩
  | buildCrc | buildSimple =>
    obtain ⟨flags, d, s, hd, x, rest, hbs, rfl, -, -⟩ := decodeBLD_eq_command h
    exact ⟨rfl, rest, hbs⟩
  | feed => obtain ⟨S, rest, hbs, rfl, -⟩ := decodeS_eq_command h; exact ⟨rfl, rest, hbs⟩
  | fwdDist => obtain ⟨a, b, rest, hbs, rfl, -⟩ := decodeP_eq_command h; exact ⟨rfl, rest, hbs⟩

/-- The decoder reads a command exactly from the bytes that begin with the encoding of a well-formed command. -/
theorem decode_eq_command_iff {bs : List Byte} {i : Instr} {n : Nat} :
    decode bs = .command i n ↔ i.wellFormed = true ∧ n = (encode i).length ∧ ∃ rest, bs = encode i ++ rest := by
  constructor
  · intro h
    have hw := wellFormed_of_decode h
    have hbs : ∃ rest, bs = encode i ++ rest := by
      cases bs with
      | nil => cases h
      | cons op bs =>
        rw [decode] at h
        split at h
        · next o ho =>
          obtain ⟨hopc, rest, rfl⟩ := decodeOperands_eq_command h
          exact ⟨rest, by rw [encode, hopc, Opcode.byte_of_ofByte ho]; rfl⟩
        · cases h
    obtain ⟨rest, rfl⟩ := hbs
    rw [decode_encode_append hw] at h
    cases h
    exact ⟨hw, rfl, rest, rfl⟩
  · rintro ⟨hw, rfl, rest, rfl⟩
    exact decode_encode_append hw rest

/-- Settles O2: the bytes begin with the encoding of the command read from them, and the length read is that encoding's. -/
theorem encodeOfDecode : Obligations.EncodeOfDecode := by
  intro bs i n h
  obtain ⟨hw, rfl, rest, rfl⟩ := decode_eq_command_iff.mp h
  exact ⟨hw, by simp, by simp⟩

/-! ### Undefined op bytes (R83) -/

/-- An op byte is undefined exactly when it is none of the twelve of the op-code map. -/
theorem ofByte_eq_none_iff (op : Byte) : Opcode.ofByte op = none ↔ ∀ o ∈ Opcode.all, o.byte ≠ op := by
  simp [Opcode.ofByte]

/-- The ranges of R83 are the gaps between the op bytes of the map. -/
theorem ofByte_eq_none_iff_undefined (op : Byte) : Opcode.ofByte op = none ↔ Machine.UndefinedOpByte op := by
  rw [ofByte_eq_none_iff]
  simp only [Opcode.all, List.forall_mem_cons, Opcode.byte, Machine.UndefinedOpByte]
  constructor
  · rintro ⟨h10, h11, h12, h20, h21, h22, h30, h31, h40, h41, h50, h51, -⟩
    bv_omega
  · intro h
    refine ⟨?_, ?_, ?_, ?_, ?_, ?_, ?_, ?_, ?_, ?_, ?_, ?_, nofun⟩ <;> bv_omega

theorem decode_eq_undefinedOp_iff {op : Byte} {bs : List Byte} :
    decode (op :: bs) = .undefinedOp op ↔ Machine.UndefinedOpByte op := by
  rw [← ofByte_eq_none_iff_undefined]
  exact ⟨ofByte_eq_none_of_decode, fun h => by rw [decode, h]⟩

end Sys2Proof

namespace Sys2Proof.Machine

theorem undefinedOpByte_count : ((List.range 256).filter fun k => decide (UndefinedOpByte (BitVec.ofNat 8 k))).length = 244 := by
  decide +kernel

/-- Settles O3: an op byte of R83's ranges is none of the map's, so the step answers it as an undefined one. -/
theorem undefinedOpByteIsIllegalOperation : Obligations.UndefinedOpByteIsIllegalOperation := by
  refine ⟨fun s op rest hop hin => ?_, fun op bs => decode_eq_undefinedOp_iff, undefinedOpByte_count⟩
  have hd : decode (arrived s.inputs) = .undefinedOp op := by
    rw [hin]
    exact decode_eq_undefinedOp_iff.mpr hop
  rw [step, hd]
  simp only [State.undefinedOp, State.consume, hin]
  rfl

end Sys2Proof.Machine

/-! ### A command's length (R85) -/

namespace Sys2Proof

/-- A well-formed command's length is found from its first bytes, whatever follows it. -/
theorem commandLength_encode_append {i : Instr} (hw : i.wellFormed = true) (rest : List Byte) :
    commandLength (encode i ++ rest) = some (encode i).length := by
  have h : Laws.EncodedLength.Statement i := by
    cases i with
    | crcClr => exact Laws.EncodedLength.crcClr
    | crcByte b => exact Laws.EncodedLength.crcByte b
    | crcCalc p => exact Laws.EncodedLength.crcCalc p
    | sumClr => exact Laws.EncodedLength.sumClr
    | sumByte b => exact Laws.EncodedLength.sumByte b
    | sumCalc d s h x => exact Laws.EncodedLength.sumCalc d s h x
    | buildCrc flags d s h x => exact Laws.EncodedLength.buildCrc flags d s h x
    | buildSimple flags d s h x => exact Laws.EncodedLength.buildSimple flags d s h x
    | parseCrc f => exact Laws.EncodedLength.parseCrc f
    | parseSimple f => exact Laws.EncodedLength.parseSimple f
    | feed S => exact Laws.EncodedLength.feed S
    | fwdDist a b => exact Laws.EncodedLength.fwdDist a b
  exact (h hw).2 rest

theorem commandLength_of_decode {bs : List Byte} {i : Instr} {n : Nat} (h : decode bs = .command i n) :
    commandLength bs = some n := by
  obtain ⟨hw, rfl, rest, rfl⟩ := decode_eq_command_iff.mp h
  exact commandLength_encode_append hw rest

/-! What an operand decoder finds incomplete is shorter than the length that the format gives, one lemma per format. -/

section
variable {op : Byte} {bs : List Byte} {n : Nat}

theorem length_lt_of_decodeB_incomplete {mk : Byte → Instr} (hop : (Opcode.ofByte op).map Opcode.format = some .B)
    (hd : decodeB mk bs = .incomplete) (hn : commandLength (op :: bs) = some n) : (op :: bs).length < n := by
  simp only [commandLength, hop, Option.some.injEq] at hn
  match bs, hd with
  | [], _ => simp [← hn]

theorem length_lt_of_decodeP_incomplete {mk : Byte → Byte → Instr} (hop : (Opcode.ofByte op).map Opcode.format = some .P)
    (hd : decodeP mk bs = .incomplete) (hn : commandLength (op :: bs) = some n) : (op :: bs).length < n := by
  simp only [commandLength, hop, Option.some.injEq] at hn
  match bs, hd with
  | [], _ | [_], _ => simp [← hn]

theorem length_lt_of_decodeS_incomplete {mk : EventSnapshot → Instr}
    (hop : (Opcode.ofByte op).map Opcode.format = some .S)
    (hd : decodeS mk bs = .incomplete) (hn : commandLength (op :: bs) = some n) : (op :: bs).length < n := by
  simp only [commandLength, hop, Option.some.injEq] at hn
  match bs, hd with
  | [], _ | [_], _ | [_, _], _ | [_, _, _], _ | [_, _, _, _], _ | [_, _, _, _, _], _ | [_, _, _, _, _, _], _ | [_, _, _, _, _, _, _], _ |
    [_, _, _, _, _, _, _, _], _ | [_, _, _, _, _, _, _, _, _], _ | [_, _, _, _, _, _, _, _, _, _], _ =>
    simp [← hn]

theorem length_lt_of_decodeL_incomplete {mk : List Byte → Instr} (hop : (Opcode.ofByte op).map Opcode.format = some .L)
    (hd : decodeL mk bs = .incomplete) (hn : commandLength (op :: bs) = some n) : (op :: bs).length < n := by
  match bs, hd with
  | [], _ | [_], _ => simp [commandLength, hop] at hn
  | nlo :: nhi :: rest, hd =>
    simp only [commandLength, hop, Option.some.injEq] at hn
    simp only [decodeL, ite_eq_right_iff, reduceCtorEq, imp_false] at hd
    simp only [List.length_cons]
    omega

theorem length_lt_of_decodeM_incomplete {mk : Byte → Byte → Byte → List Byte → Instr}
    (hop : (Opcode.ofByte op).map Opcode.format = some .M)
    (hd : decodeM mk bs = .incomplete) (hn : commandLength (op :: bs) = some n) : (op :: bs).length < n := by
  match bs, hd with
  | [], _ | [_], _ | [_, _], _ | [_, _, _], _ => simp [commandLength, hop] at hn
  | d :: s :: h :: m :: rest, hd =>
    simp only [commandLength, hop, Option.some.injEq] at hn
    simp only [decodeM, ite_eq_right_iff, reduceCtorEq, imp_false] at hd
    simp only [List.length_cons]
    omega

theorem length_lt_of_decodeBLD_incomplete {mk : Byte → Byte → Byte → Byte → List Byte → Instr}
    (hop : (Opcode.ofByte op).map Opcode.format = some .BLD)
    (hd : decodeBLD mk bs = .incomplete) (hn : commandLength (op :: bs) = some n) : (op :: bs).length < n := by
  match bs, hd with
  | [], _ | [_], _ | [_, _], _ | [_, _, _], _ | [_, _, _, _], _ => simp [commandLength, hop] at hn
  | flags :: d :: s :: h :: m :: rest, hd =>
    simp only [commandLength, hop, Option.some.injEq] at hn
    simp only [decodeBLD, ite_eq_right_iff, reduceCtorEq, imp_false] at hd
    simp only [List.length_cons]
    omega

theorem length_lt_of_decodeOperands_incomplete {o : Opcode} (ho : Opcode.ofByte op = some o)
    (hd : decodeOperands o bs = .incomplete) (hn : commandLength (op :: bs) = some n) : (op :: bs).length < n := by
  have hop : (Opcode.ofByte op).map Opcode.format = some o.format := by rw [ho]; rfl
  cases o with
  | crcClr | sumClr => cases hd
  | crcByte | sumByte => exact length_lt_of_decodeB_incomplete hop hd hn
  | crcCalc | parseCrc | parseSimple => exact length_lt_of_decodeL_incomplete hop hd hn
  | sumCalc => exact length_lt_of_decodeM_incomplete hop hd hn
  | buildCrc | buildSimple => exact length_lt_of_decodeBLD_incomplete hop hd hn
  | feed => exact length_lt_of_decodeS_incomplete hop hd hn
  | fwdDist => exact length_lt_of_decodeP_incomplete hop hd hn

end

theorem cons_of_decode_undefinedOp {bs : List Byte} {op : Byte} (h : decode bs = .undefinedOp op) : ∃ rest, bs = op :: rest := by
  cases bs with
  | nil => cases h
  | cons b rest =>
    rw [decode] at h
    split at h
    · exact absurd h (decodeOperands_ne_undefinedOp _ _ _)
    · cases h; exact ⟨rest, rfl⟩

/-- A command is incomplete exactly when its length is not known yet or is more than the bytes there are. -/
theorem decode_eq_incomplete_iff {bs : List Byte} :
    decode bs = .incomplete ↔ ∀ n, commandLength bs = some n → bs.length < n := by
  constructor
  · intro hd n hn
    cases bs with
    | nil => cases hn
    | cons op bs =>
      rw [decode] at hd
      split at hd
      · next ho => exact length_lt_of_decodeOperands_incomplete ho hd hn
      · cases hd
  · intro hlen
    match hd : decode bs with
    | .command i n =>
      obtain ⟨-, hle, -⟩ := encodeOfDecode bs i n hd
      exact absurd (hlen n (commandLength_of_decode hd)) (Nat.not_lt.mpr hle)
    | .undefinedOp op =>
      obtain ⟨rest, rfl⟩ := cons_of_decode_undefinedOp hd
      have hlt := hlen 1 (by simp only [commandLength, ofByte_eq_none_of_decode hd, Option.map_none])
      exact absurd hlt (by simp)
    | .incomplete => rfl

/-- Settles O4: the encoding of the command read gives its length, and each operand decoder waits for exactly the bytes its format
counts. -/
theorem commandLengthIsDecodedLength : Obligations.CommandLengthIsDecodedLength :=
  ⟨fun _ _ _ => commandLength_of_decode, fun _ => decode_eq_incomplete_iff⟩

end Sys2Proof

/-! ### The step, by what stands on the port (R77, R87) -/

namespace Sys2Proof

/-- A decoded command stays the same when more bytes arrive. -/
theorem decode_append_of_command {bs : List Byte} {i : Instr} {n : Nat} (h : decode bs = .command i n) (more : List Byte) :
    decode (bs ++ more) = .command i n := by
  obtain ⟨hw, rfl, rest, rfl⟩ := decode_eq_command_iff.mp h
  rw [List.append_assoc, decode_encode_append hw]

/-- No proper, non-empty beginning of a command's bytes is complete: a command read from it would be the command itself, which is
longer, and its op byte is defined. -/
theorem decode_take_encode {i : Instr} (hw : i.wellFormed = true) {k : Nat} (h0 : 0 < k) (hk : k < (encode i).length) :
    decode ((encode i).take k) = .incomplete := by
  match hd : decode ((encode i).take k) with
  | .command j n =>
    have hj := decode_append_of_command hd ((encode i).drop k)
    have hi := decode_encode_append hw []
    rw [List.append_nil, ← List.take_append_drop k (encode i), hj, List.take_append_drop] at hi
    obtain ⟨-, hn, -⟩ := encodeOfDecode _ _ _ hd
    cases hi
    exact absurd (hn.trans (List.length_take_le k _)) (Nat.not_le.mpr hk)
  | .undefinedOp op =>
    obtain ⟨rest, hcons⟩ := cons_of_decode_undefinedOp hd
    obtain ⟨k, rfl⟩ := Nat.exists_eq_succ_of_ne_zero h0.ne'
    rw [encode, List.take_succ_cons, List.cons.injEq] at hcons
    have hnone := ofByte_eq_none_of_decode hd
    rw [← hcons.1, Opcode.ofByte_byte] at hnone
    cases hnone
  | .incomplete => rfl

end Sys2Proof

namespace Sys2Proof.Machine

/-- Settles O7: what the step takes from the port is `consume`; that the command is well-formed is not needed. -/
theorem stepRunsDecodedCommand : Obligations.StepRunsDecodedCommand := fun _ _ _ hd _ => step_of_decode_command hd

theorem arrived_bytes (bs : List Byte) : arrived (bs.map .byte) = bs := by
  simpa [arrived] using arrived_bytes_append bs []

/-- With no reset on the port, waiting is a fault. -/
theorem State.await_of_no_reset {s : State} (h : Input.reset ∉ s.inputs) :
    s.await = if s.inputs = [] then .fault .portEmpty else .fault .commandIncomplete := by
  rcases s.await_cases with ⟨rest, hin, -⟩ | ⟨-, ha⟩
  · exact absurd (hin ▸ by simp) h
  · exact ha

/-- With a reset on the port, waiting ends with the reset. -/
theorem State.await_of_reset {s : State} (h : Input.reset ∈ s.inputs) : ∃ t, s.await = .next t := by
  rcases s.await_cases with ⟨rest, -, ha⟩ | ⟨hin, -⟩
  · exact ⟨_, ha⟩
  · rw [hin] at h
    simp at h

/-- A step answers a next state, or nothing but an incomplete command is on the port and the step waits. -/
theorem step_answers_or_waits (s : State) :
    (∃ t, step s = .next t) ∧ ¬(decode (arrived s.inputs) = .incomplete ∧ Input.reset ∉ s.inputs) ∨
    (decode (arrived s.inputs) = .incomplete ∧ Input.reset ∉ s.inputs) ∧
      step s = if s.inputs = [] then .fault .portEmpty else .fault .commandIncomplete := by
  rcases step_cases s with ⟨i, n, hd, hs⟩ | ⟨op, hd, hs⟩ | ⟨hd, hs⟩
  · exact .inl ⟨hs ▸ exec_completes i _, by simp [hd]⟩
  · exact .inl ⟨⟨_, hs⟩, by simp [hd]⟩
  · by_cases hr : Input.reset ∈ s.inputs
    · exact .inl ⟨hs ▸ State.await_of_reset hr, by simp [hr]⟩
    · exact .inr ⟨⟨hd, hr⟩, hs.trans (State.await_of_no_reset hr)⟩

/-- Settles O12: commands, undefined op bytes and a reset all answer; what is left is waiting. -/
theorem stepStopsOnlyToWait : Obligations.StepStopsOnlyToWait := by
  intro s
  rcases step_answers_or_waits s with ⟨⟨t, ht⟩, hnot⟩ | ⟨hwait, hs⟩
  · have hne : s.inputs ≠ [] := fun he => hnot (by rw [he]; exact ⟨rfl, nofun⟩)
    simp [ht, hnot, hne]
  · have hfault : ∃ f, step s = .fault f ∧ (f = .portEmpty ↔ s.inputs = []) := by
      rw [hs]
      by_cases he : s.inputs = []
      · exact ⟨.portEmpty, if_pos he, by simp [he]⟩
      · exact ⟨.commandIncomplete, if_neg he, by simp [he]⟩
    obtain ⟨f, hf, hempty⟩ := hfault
    rw [hf]
    exact ⟨nofun, iff_of_true ⟨f, rfl⟩ hwait, by simpa using hempty⟩

theorem step_of_incomplete {s : State} {bs : List Byte} (hin : s.inputs = bs.map .byte) (hne : bs ≠ [])
    (hd : decode bs = .incomplete) : step s = .fault .commandIncomplete := by
  have hd' : decode (arrived s.inputs) = .incomplete := by rw [hin, arrived_bytes, hd]
  have hr : Input.reset ∉ s.inputs := by simp [hin]
  rcases step_answers_or_waits s with ⟨-, hnot⟩ | ⟨-, hs⟩
  · exact absurd ⟨hd', hr⟩ hnot
  · rw [hs, if_neg (by simpa [hin] using hne)]

/-- An encoded command at the front of the port is taken from it and executed. -/
theorem step_of_inputs_eq_encode {i : Instr} (hw : i.wellFormed = true) {s : State} {rest : List Input}
    (hin : s.inputs = (encode i).map .byte ++ rest) : step s = exec i { s with inputs := rest } := by
  have h := step_encode_append hw s rest
  rwa [← hin] at h

/-- A run over the commands on the port goes on from some state with what stands behind them. -/
theorem run_encodeInputs_append {is : List Instr} (hw : ∀ i ∈ is, i.wellFormed = true) (s : State) (rest : List Input) (k : Nat) :
    ∃ t : State, Host.Core.run Sys2Proof.core (is.length + k) { s with inputs := encodeInputs is ++ rest } =
      Host.Core.run Sys2Proof.core k { t with inputs := rest } := by
  induction is generalizing s with
  | nil => exact ⟨s, by rw [List.length_nil, Nat.zero_add]; rfl⟩
  | cons i is ih =>
    obtain ⟨hi, his⟩ := List.forall_mem_cons.mp hw
    obtain ⟨t, ht⟩ := exec_withInputs i s
    obtain ⟨u, hu⟩ := ih his t
    have hstep : step { s with inputs := encodeInputs (i :: is) ++ rest } = .next { t with inputs := encodeInputs is ++ rest } := by
      rw [encodeInputs_cons, List.append_assoc, step_encode_append hi, ht]
    refine ⟨u, ?_⟩
    rw [List.length_cons, Nat.add_right_comm]
    exact (run_next _ hstep).trans hu

/-- Settles O9: the bytes there are do not decode, so the step waits; with the rest they are the command's encoding; and complete
commands before them run first and leave them where they stand. -/
theorem incompleteCommandIsStuck : Obligations.IncompleteCommandIsStuck := by
  intro s i k hw h0 hk hin
  have hd := decode_take_encode hw h0 hk
  have hne : (encode i).take k ≠ [] := by
    simp [h0.ne', encode_ne_nil]
  have hall : (s.receive (((encode i).drop k).map .byte)).inputs = (encode i).map .byte ++ [] := by
    rw [State.receive_inputs, hin, ← List.map_append, List.take_append_drop, List.append_nil]
  refine ⟨step_of_incomplete hin hne hd, step_of_inputs_eq_encode hw hall, fun is his => ?_⟩
  obtain ⟨t, ht⟩ := run_encodeInputs_append his s s.inputs 1
  exact ht.trans (run_fault 0 (step_of_incomplete (s := { t with inputs := s.inputs }) hin hne hd))

/-- Settles O13: FEED's three cases, and the one shape that every other command has. -/
theorem everyCommandGivesOneResponse : Obligations.EveryCommandGivesOneResponse := by
  intro i s
  rcases feed_or_not_feed i with ⟨S, rfl⟩ | hi
  · rw [exec_feed]
    rcases s.feed_cases Config.histN (Config.absentSnapshot s.responses.length) S with ⟨-, hf⟩ | ⟨-, -, hf⟩ | ⟨-, -, hf⟩ <;>
      exact ⟨_, _, rfl, by rw [hf]; exact ⟨rfl, rfl⟩⟩
  · obtain ⟨crc', sum', r, hexec⟩ := exec_of_not_feed hi s.crcAcc s.sumAcc
    exact ⟨_, r, hexec s rfl rfl, rfl, rfl⟩

end Sys2Proof.Machine

/-! ### The streams (R89) -/

namespace Sys2Proof.Machine

theorem exec_crcClr (s : State) : exec .crcClr s = .next ((s.setCrc 0x0000).respondOk (.word 0x0000)) := rfl

theorem exec_crcByte (b : Byte) (s : State) :
    exec (.crcByte b) s = .next ((s.setCrc (crcStep s.crcAcc b)).respondOk (.word (crcStep s.crcAcc b))) := rfl

theorem exec_sumClr (s : State) : exec .sumClr s = .next ((s.setSum 0x00).respondOk (.byte 0x00)) := rfl

theorem exec_sumByte (b : Byte) (s : State) :
    exec (.sumByte b) s = .next ((s.setSum (s.sumAcc + b)).respondOk (.byte (neg8 (s.sumAcc + b).toNat))) := rfl

/-- CRC.BYTE on each byte of a list takes the register through the list; each command adds one response. -/
theorem execAll_crcBytes (bs : List Byte) (s : State) : ∃ rs : List Response, rs.length = bs.length ∧
    execAll (bs.map .crcByte) s = .next { s with crcAcc := bs.foldl crcStep s.crcAcc, responses := s.responses ++ rs } := by
  induction bs generalizing s with
  | nil => exact ⟨[], rfl, by simp [execAll]⟩
  | cons b bs ih =>
    obtain ⟨rs, hlen, hrun⟩ := ih ((s.setCrc (crcStep s.crcAcc b)).respondOk (.word (crcStep s.crcAcc b)))
    refine ⟨.ok (.word (crcStep s.crcAcc b)) :: rs, by simp [hlen], ?_⟩
    rw [List.map_cons, execAll_cons (exec_crcByte b s), hrun]
    simp

/-- SUM.BYTE on each byte of a list adds the bytes. Each command adds one response, and when the response before them was the check
byte of `sum_acc`, so is the last one. -/
theorem execAll_sumBytes (bs : List Byte) (s : State) : ∃ rs : List Response, rs.length = bs.length ∧
    (.ok (.byte (neg8 s.sumAcc.toNat)) :: rs).getLast? =
      some (.ok (.byte (neg8 (s.sumAcc + BitVec.ofNat 8 (byteSum bs)).toNat))) ∧
    execAll (bs.map .sumByte) s =
      .next { s with sumAcc := s.sumAcc + BitVec.ofNat 8 (byteSum bs), responses := s.responses ++ rs } := by
  induction bs generalizing s with
  | nil => exact ⟨[], rfl, by simp [byteSum], by simp [byteSum, execAll]⟩
  | cons b bs ih =>
    have hsum : s.sumAcc + b + BitVec.ofNat 8 (byteSum bs) = s.sumAcc + BitVec.ofNat 8 (byteSum (b :: bs)) := by
      simp [byteSum, BitVec.ofNat_add, BitVec.add_assoc]
    obtain ⟨rs, hlen, hlast, hrun⟩ := ih ((s.setSum (s.sumAcc + b)).respondOk (.byte (neg8 (s.sumAcc + b).toNat)))
    rw [State.respondOk_sumAcc, State.setSum_sumAcc, hsum] at hlast hrun
    refine ⟨.ok (.byte (neg8 (s.sumAcc + b).toNat)) :: rs, by simp [hlen], by rw [List.getLast?_cons_cons, hlast], ?_⟩
    rw [List.map_cons, execAll_cons (exec_sumByte b s), hrun]
    simp

/-- Negation mod 256 looks at the low byte alone. -/
theorem neg8_toNat_ofNat (n : Nat) : neg8 (BitVec.ofNat 8 n).toNat = neg8 n := by
  rw [neg8, neg8, BitVec.toNat_ofNat, Nat.mod_mod]

/-- Settles O24: each stream clears its accumulator and then takes the bytes one by one. -/
theorem streamsComputeTheChecksums : Obligations.StreamsComputeTheChecksums := by
  refine ⟨fun _ => rfl, fun _ => rfl, fun bs s => ?_, fun bs s => ?_⟩
  · obtain ⟨rs, hlen, hrun⟩ := execAll_crcBytes bs ((s.setCrc 0x0000).respondOk (.word 0x0000))
    refine ⟨.ok (.word 0x0000) :: rs, by simp [hlen], ?_⟩
    rw [AsmLine.commands, streamCrc, execAll_cons (exec_crcClr s), hrun]
    simp [crc16]
  · obtain ⟨rs, hlen, hlast, hrun⟩ := execAll_sumBytes bs ((s.setSum 0x00).respondOk (.byte 0x00))
    have hsum : (0x00 : Byte) + BitVec.ofNat 8 (byteSum bs) = BitVec.ofNat 8 (byteSum bs) := BitVec.zero_add _
    rw [State.respondOk_sumAcc, State.setSum_sumAcc, hsum] at hlast hrun
    rw [neg8_toNat_ofNat] at hlast
    refine ⟨.ok (.byte 0x00) :: rs, by simp [hlen], hlast, ?_⟩
    rw [AsmLine.commands, streamSum, execAll_cons (exec_sumClr s), hrun]
    simp [byteSum]

/-! ### Reserved flag bits (R84) -/

theorem reservedSet_of_ge {flags : Byte} (h : 8 ≤ flags) : reservedSet flags = true := by
  have hne : flags.extractLsb' 3 5 ≠ 0 := by
    intro h0
    have h1 := congrArg BitVec.toNat h0
    have h2 : 8 ≤ flags.toNat := h
    have hlt := flags.isLt
    rw [BitVec.extractLsb'_toNat, Nat.shiftRight_eq_div_pow] at h1
    simp only [BitVec.ofNat_eq_ofNat, BitVec.toNat_ofNat] at h1
    omega
  simpa [reservedSet] using hne

theorem build_of_reservedSet {flags : Byte} (h : reservedSet flags = true) (op : Byte) (v : Variant) (d s : Byte) (m : Message) :
    build op v flags d s m = .illegalOperation op := if_pos h

/-- Settles O29: the bytes are the encoding of a BUILD command, and a BUILD checks the reserved bits first. -/
theorem reservedFlagBitsAreIllegalOperation : Obligations.ReservedFlagBitsAreIllegalOperation := by
  intro s op flags d src h n x rest hop hflags hn hin
  have hx : x.length ≤ Config.dataMax := hn ▸ Nat.le_of_lt_succ n.isLt
  have hbuild := build_of_reservedSet (reservedSet_of_ge hflags)
  rw [← lengthByte_eq_of_toNat hn] at hin
  rcases hop with rfl | rfl
  · rw [step_of_inputs_eq_encode (i := .buildCrc flags d src h x) (decide_eq_true hx) hin]
    exact (State.complete_eq _ _).trans (by rw [hbuild]; rfl)
  · rw [step_of_inputs_eq_encode (i := .buildSimple flags d src h x) (decide_eq_true hx) hin]
    exact (State.complete_eq _ _).trans (by rw [hbuild]; rfl)

/-! ### Frames (R70 to R72) -/

/-- What stands where in four fields, data and a last byte: the shape of a frame of either variant. -/
theorem fields_layout {d n b h c : Byte} {x : List Byte} (hn : n.toNat = x.length) :
    let f := [d, n, b, h] ++ x ++ [c]
    f.length = 5 + x.length ∧ f[0]? = some d ∧ f[1]?.map BitVec.toNat = some x.length ∧ f[2]? = some b ∧ f[3]? = some h ∧
      (∀ j, j < x.length → f[4 + j]? = x[j]?) ∧ f[4 + x.length]? = some c := by
  refine ⟨length_fields d n b h c x, rfl, congrArg some hn, rfl, rfl, fun j hj => ?_, ?_⟩
  · rw [List.append_assoc, List.getElem?_append_right (Nat.le_add_right 4 j), List.getElem?_append_left (by simpa using hj)]
    simp
  · have hlast : 4 + x.length = ([d, n, b, h] ++ x ++ [c]).length - 1 := by rw [length_fields]; omega
    rw [hlast, ← List.getLast?_eq_getElem?, List.getLast?_concat]

/-- Settles O30: both frames have the shape of four fields, data and a last byte. -/
theorem frameLayouts : Obligations.FrameLayouts := fun _ _ _ _ hx =>
  ⟨fields_layout (toNat_lengthByte_of_le hx), fields_layout (toNat_lengthByte_of_le hx)⟩

/-- Fields whose length byte says the number of data bytes are 5 to 260 bytes, and that byte is 5 less. -/
theorem fields_length_bounds {d n b h c : Byte} {x : List Byte} (hn : n.toNat = x.length) :
    let f := [d, n, b, h] ++ x ++ [c]
    5 ≤ f.length ∧ f.length ≤ 260 ∧ f[1]?.map BitVec.toNat = some (f.length - 5) := by
  obtain ⟨hlen, -, hbyte, -⟩ := fields_layout (d := d) (b := b) (h := h) (c := c) hn
  have hlt := n.isLt
  refine ⟨by omega, by omega, ?_⟩
  rw [hbyte, hlen, Nat.add_sub_cancel_left]

/-- An input that the framing checks pass on has the length it declares. -/
theorem length_of_parseFrame_ok {f : List Byte} {checked : Response} {p : Payload} (h : parseFrame f checked = .ok p) :
    5 ≤ f.length ∧ f.length = 5 + (declaredLength f).toNat := by
  rcases parseFrame_cases f checked with ⟨-, hp⟩ | ⟨-, -, hp⟩ | ⟨h5, hlen, -⟩
  · cases hp.symm.trans h
  · cases hp.symm.trans h
  · exact ⟨h5, hlen⟩

theorem exec_parseCommand (v : Variant) (f : List Byte) (s : State) :
    exec (parseCommand v f) s = .next (s.respond (parse v f)) := by
  cases v <;> exact s.complete_eq _

theorem parse_eq_of_exec {v : Variant} {f : List Byte} {s : State} {r : Response}
    (h : exec (parseCommand v f) s = .next { s with responses := s.responses ++ [r] }) : parse v f = r := by
  rw [exec_parseCommand] at h
  simpa using congrArg State.responses (Host.Outcome.next.inj h)

theorem length_of_parse_ok {v : Variant} {f : List Byte} {p : Payload} (h : parse v f = .ok p) :
    5 ≤ f.length ∧ f.length = 5 + (declaredLength f).toNat := by
  cases v with
  | crc => exact length_of_parseFrame_ok h
  | simple => exact length_of_parseFrame_ok h

/-- Settles O31: an accepted input and a built frame are both fields whose length byte says the number of data bytes. -/
theorem onlyFramesOfTheirDeclaredLengthParse : Obligations.OnlyFramesOfTheirDeclaredLengthParse := by
  refine ⟨fun v f s m hexec => ?_, fun d src h x f hx hf => ?_⟩
  · obtain ⟨h5, hlen⟩ := length_of_parse_ok (parse_eq_of_exec hexec)
    obtain ⟨d, n, b, h, x, c, rfl, hn⟩ := exists_fields_of_length h5 hlen
    exact fields_length_bounds hn
  · rcases hf with rfl | rfl
    · exact fields_length_bounds (toNat_lengthByte_of_le hx)
    · exact fields_length_bounds (toNat_lengthByte_of_le hx)

end Sys2Proof.Machine

/-! ### Op bytes and sample words (R78 to R82) -/

namespace Sys2Proof

/-- Settles O5: each word is decoded as it stands. -/
theorem sampleWordsDecode : Obligations.SampleWordsDecode := by
  unfold Obligations.SampleWordsDecode
  decide

/-- An op byte is its unit and its function. -/
theorem eq_of_opUnit_of_opFunction {a b : Byte} (hu : opUnit a = opUnit b) (hf : opFunction a = opFunction b) : a = b := by
  have hu' := congrArg BitVec.toNat hu
  have hf' := congrArg BitVec.toNat hf
  simp only [opUnit, opFunction, BitVec.extractLsb'_toNat, Nat.shiftRight_eq_div_pow] at hu' hf'
  bv_omega

theorem Opcode.byte_injective {o o' : Opcode} (h : o.byte = o'.byte) : o = o' := by
  have hof := congrArg Opcode.ofByte h
  rw [Opcode.ofByte_byte, Opcode.ofByte_byte] at hof
  exact Option.some.inj hof

/-- Settles O6: unit and function together are the op byte, which names one op code. -/
theorem opByteNamesUnitAndVariant : Obligations.OpByteNamesUnitAndVariant := by
  refine ⟨fun o => ?_, fun o o' hu hf => Opcode.byte_injective (eq_of_opUnit_of_opFunction hu hf), by decide, by decide,
    fun f v => ?_⟩
  · cases o <;> decide
  · cases v with
    | crc => exact (by decide : opVariant Opcode.parseCrc.byte = .crc)
    | simple => exact (by decide : opVariant Opcode.parseSimple.byte = .simple)

/-! ### The lines of the assembler (R88) -/

/-- The two length bytes of format L are the remainder and the quotient by 256. -/
theorem encodeLengthL_eq (n : Nat) : encodeLengthL n = [BitVec.ofNat 8 (n % 256), BitVec.ofNat 8 (n / 256)] := by
  have hmod : BitVec.ofNat 8 n = BitVec.ofNat 8 (n % 256) := by
    apply BitVec.eq_of_toNat_eq
    rw [BitVec.toNat_ofNat, BitVec.toNat_ofNat, Nat.mod_mod]
  rw [encodeLengthL, hmod]

end Sys2Proof

namespace Sys2Proof.Machine

/-- A line of one command is that command's bytes, when its byte sequence fits its length field, and is rejected when it does not. -/
theorem AsmLine.assemble_of_command (l : AsmLine) {i : Instr} (hc : l.commands = [i]) :
    l.assemble = if i.wellFormed then some (encode i) else none := by
  have hraw : ∀ v, l ≠ .rawByte v := by rintro v rfl; cases hc
  rw [AsmLine.assemble]
  · simp [hc]
  · exact hraw

theorem AsmLine.assemble_of_wellFormed (l : AsmLine) {i : Instr} (hc : l.commands = [i]) (hw : i.wellFormed = true) :
    l.assemble = some (encode i) := by
  rw [l.assemble_of_command hc, if_pos hw]

theorem AsmLine.assemble_of_not_wellFormed (l : AsmLine) {i : Instr} (hc : l.commands = [i]) (hw : i.wellFormed = false) :
    l.assemble = none := by
  rw [l.assemble_of_command hc, hw]
  rfl

theorem asmFlags_eq (dst src hdr : Option Byte) :
    asmFlags dst src hdr = BitVec.ofNat 8 (dst.isSome.toNat + 2 * src.isSome.toNat + 4 * hdr.isSome.toNat) := by
  unfold asmFlags
  generalize dst.isSome = dv, src.isSome = sv, hdr.isSome = hv
  revert dv sv hv
  decide

/-- Settles O58: every line but `.byte` is one command, and its bytes are that command's. -/
theorem assemblyLinesEncode : Obligations.AssemblyLinesEncode := by
  refine ⟨rfl, fun b => rfl, fun p hp => ?_, rfl, fun b => rfl, fun d s h x hx => ?_, fun dst hdr x hx => ?_,
    fun dst src hdr x hx => ?_, fun f hf => ?_, fun f hf => ?_, fun c a0 b0 a1 b1 a2 b2 a3 b3 a4 b4 => rfl, fun a b => rfl,
    fun v => rfl, fun dst src hdr d s h x hx => ?_⟩
  · rw [(AsmLine.crcCalc p).assemble_of_wellFormed rfl (decide_eq_true hp), encode, encodeOperands, encodeLengthL_eq]
    rfl
  · exact (AsmLine.sumCalc d s h x).assemble_of_wellFormed rfl (decide_eq_true hx)
  · rw [(AsmLine.buildCrc dst hdr x).assemble_of_wellFormed rfl (decide_eq_true hx), asmFlags_eq]
    rfl
  · rw [(AsmLine.buildSimple dst src hdr x).assemble_of_wellFormed rfl (decide_eq_true hx), asmFlags_eq]
    rfl
  · rw [(AsmLine.parseCrc f).assemble_of_wellFormed rfl (decide_eq_true hf), encode, encodeOperands, encodeLengthL_eq]
    rfl
  · rw [(AsmLine.parseSimple f).assemble_of_wellFormed rfl (decide_eq_true hf), encode, encodeOperands, encodeLengthL_eq]
    rfl
  · have hlong : ¬ x.length ≤ Config.dataMax := Nat.not_le.mpr hx
    exact ⟨(AsmLine.buildCrc dst hdr x).assemble_of_not_wellFormed rfl (decide_eq_false hlong),
      (AsmLine.buildSimple dst src hdr x).assemble_of_not_wellFormed rfl (decide_eq_false hlong),
      (AsmLine.sumCalc d s h x).assemble_of_not_wellFormed rfl (decide_eq_false hlong)⟩

end Sys2Proof.Machine

/-! # Proofs for 40_checksum.md: the CRC generator and the sum encoder -/

namespace Sys2Proof.Machine

/-! ### One entry of a list changed -/

/-- A list before and after a change of one entry. -/
theorem set_split {α : Type} {a : List α} {i : Nat} {b : α} (hi : i < a.length) (hb : a[i]? ≠ some b) :
    ∃ pre c post, a = pre ++ c :: post ∧ a.set i b = pre ++ b :: post ∧ c ≠ b := by
  refine ⟨a.take i, a[i], a.drop (i + 1), ?_, List.set_eq_take_append_cons_drop.trans (if_pos hi), ?_⟩
  · rw [← List.drop_eq_getElem_cons hi, List.take_append_drop]
  · rintro rfl
    exact hb (List.getElem?_eq_getElem hi)

/-! ### The bit loop (R100) -/

/-- The bit that is shifted out, over the natural numbers. -/
theorem getLsbD_15_iff (c : Word16) : c.getLsbD 15 = true ↔ 2 ^ 15 ≤ c.toNat := by
  have hlast : c.getLsbD 15 = decide (2 ^ 15 ≤ c.toNat) := BitVec.getLsbD_last c
  rw [hlast, decide_eq_true_iff]

theorem crcShift_of_lt {c : Word16} (h : c.toNat < 2 ^ 15) : crcShift c = c <<< 1 :=
  if_neg fun hbit => Nat.not_le.mpr h ((getLsbD_15_iff c).mp hbit)

/-- One turn of R100's loop over the natural numbers. -/
def crcShiftNat (c : Nat) : Nat := if c / 2 ^ 15 % 2 = 1 then (c * 2 % 2 ^ 16) ^^^ 0x1021 else c * 2 % 2 ^ 16

theorem toNat_crcShift (c : Word16) : (crcShift c).toNat = crcShiftNat c.toNat := by
  have hbit : c.getLsbD 15 = true ↔ c.toNat / 2 ^ 15 % 2 = 1 := by
    have hlt := c.isLt
    rw [getLsbD_15_iff]
    omega
  have hshift : (c <<< 1).toNat = c.toNat * 2 % 2 ^ 16 := by
    rw [BitVec.toNat_shiftLeft, Nat.shiftLeft_eq, Nat.pow_one]
  by_cases h : c.getLsbD 15 = true
  · rw [crcShift, crcShiftNat, if_pos h, if_pos (hbit.mp h), BitVec.toNat_xor, hshift]
    rfl
  · rw [crcShift, crcShiftNat, if_neg h, if_neg (mt hbit.mpr h), hshift]

theorem toNat_repeat_crcShift (n : Nat) (c : Word16) :
    (Nat.repeat crcShift n c).toNat = Nat.repeat crcShiftNat n c.toNat := by
  induction n with
  | zero => rfl
  | succ n ih => rw [Nat.repeat, Nat.repeat, toNat_crcShift, ih]

theorem toNat_crcStep (crc : Word16) (b : Byte) :
    (crcStep crc b).toNat = Nat.repeat crcShiftNat 8 (crc.toNat ^^^ (b.toNat * 2 ^ 8)) := by
  have hb : (b.setWidth 16 <<< 8).toNat = b.toNat * 2 ^ 8 := by
    have hlt := b.isLt
    rw [BitVec.toNat_shiftLeft, BitVec.toNat_setWidth, Nat.shiftLeft_eq]
    omega
  rw [crcStep, toNat_repeat_crcShift, BitVec.toNat_xor, hb]

/-! ### The table-driven and the byte-wise form (R100) -/

/-- A zero byte leaves a zero register at zero. -/
@[simp] theorem crcStep_zero_zero : crcStep 0#16 0#8 = 0#16 := by decide

/-- While no 1 is shifted out, the shifts are plain. -/
theorem repeat_crcShift_of_lt {n : Nat} {c : Word16} (h : c.toNat * 2 ^ n < 2 ^ 16) : Nat.repeat crcShift n c = c <<< n := by
  induction n with
  | zero => exact (BitVec.shiftLeft_zero c).symm
  | succ n ih =>
    rw [Nat.pow_succ, ← Nat.mul_assoc] at h
    have hlt : (c <<< n).toNat < 2 ^ 15 := by
      rw [BitVec.toNat_shiftLeft, Nat.shiftLeft_eq]
      omega
    rw [Nat.repeat, ih (by omega), crcShift_of_lt hlt, BitVec.shiftLeft_add]

/-- A register is its two bytes, each in its place. -/
theorem eq_crcLSB_xor_crcMSB (c : Word16) : c = (crcLSB c).setWidth 16 ^^^ ((crcMSB c).setWidth 16 <<< 8) := by
  ext i hi
  by_cases h8 : i < 8
  · simp [crcLSB, crcMSB, h8, BitVec.getLsbD_eq_getElem hi]
  · have hsub : i - 8 < 8 := by omega
    simp [crcLSB, crcMSB, h8, hsub, Nat.add_sub_cancel' (Nat.not_lt.mp h8), BitVec.getLsbD_eq_getElem hi]

theorem crcLSB_shiftLeft (c : Word16) : (crcLSB c).setWidth 16 <<< 8 = c <<< 8 := by
  ext i hi
  have hsub : i - 8 < 8 := by omega
  simp [crcLSB, hsub, BitVec.getLsbD_eq_getElem (show i - 8 < 16 by omega)]

/-- The table-driven form: the low byte moves up unchanged, and the high byte and the new byte index the table. -/
theorem crcStep_eq_table (crc : Word16) (b : Byte) : crcStep crc b = (crc <<< 8) ^^^ crcStep 0#16 (crcMSB crc ^^^ b) := by
  have hlow : Nat.repeat crcShift 8 ((crcLSB crc).setWidth 16) = crc <<< 8 := by
    have hlt := (crcLSB crc).isLt
    rw [repeat_crcShift_of_lt, crcLSB_shiftLeft]
    rw [BitVec.toNat_setWidth]
    omega
  have hword : crc ^^^ (b.setWidth 16 <<< 8) =
      (crcLSB crc).setWidth 16 ^^^ (0#16 ^^^ ((crcMSB crc ^^^ b).setWidth 16 <<< 8)) := by
    conv_lhs => rw [eq_crcLSB_xor_crcMSB crc]
    rw [BitVec.setWidth_xor, BitVec.shiftLeft_xor_distrib, BitVec.xor_assoc]
    simp
  rw [crcStep, hword, repeat_crcShift_xor, hlow, crcStep]

/-- The low `k + 1` bits of a byte are its low `k` bits and its bit `k`. -/
theorem setWidth_succ_eq_xor (x : Byte) (k : Nat) : (x.setWidth (k + 1)).setWidth 8 =
    (x.setWidth k).setWidth 8 ^^^ if x.getLsbD k then BitVec.twoPow 8 k else 0#8 := by
  ext i hi
  rcases lt_trichotomy i k with hik | rfl | hik
  · cases x.getLsbD k <;> simp [hik, hik.le, hik.ne]
  · cases h : x.getLsbD i <;> simp [h]
  · cases x.getLsbD k <;> simp [hik.not_ge, hik.not_gt, hik.ne']

/-- Two linear functions of a byte that agree on each single bit agree. -/
theorem eq_of_xor_linear {f g : Byte → Word16} (hf : ∀ x y, f (x ^^^ y) = f x ^^^ f y) (hg : ∀ x y, g (x ^^^ y) = g x ^^^ g y)
    (h : ∀ i < 8, f (BitVec.twoPow 8 i) = g (BitVec.twoPow 8 i)) (x : Byte) : f x = g x := by
  have hzero : f 0#8 = g 0#8 := by
    have hf0 := hf 0#8 0#8
    have hg0 := hg 0#8 0#8
    rw [BitVec.xor_self, BitVec.xor_self] at hf0 hg0
    rw [hf0, hg0]
  have hlow : ∀ k ≤ 8, f ((x.setWidth k).setWidth 8) = g ((x.setWidth k).setWidth 8) := by
    intro k hk
    induction k with
    | zero => rwa [BitVec.of_length_zero (x := x.setWidth 0)]
    | succ k ih =>
      rw [setWidth_succ_eq_xor, hf, hg, ih (Nat.le_of_succ_le hk)]
      split
      · rw [h k hk]
      · rw [hzero]
  simpa using hlow 8 le_rfl

/-- An entry of the table, by shifts. -/
def crcEntry (x : Byte) : Word16 :=
  let y := (x ^^^ (x >>> 4)).setWidth 16
  (y <<< 12) ^^^ (y <<< 5) ^^^ y

theorem crcEntry_xor (x y : Byte) : crcEntry (x ^^^ y) = crcEntry x ^^^ crcEntry y := by
  simp only [crcEntry, BitVec.ushiftRight_xor_distrib, BitVec.setWidth_xor, BitVec.shiftLeft_xor_distrib]
  ac_rfl

theorem crcStep_zero_eq_crcEntry (x : Byte) : crcStep 0#16 x = crcEntry x :=
  eq_of_xor_linear (fun x y => crcStep_xor 0#16 0#16 x y) crcEntry_xor (by decide) x

/-- Settles O17: the shift over numbers is the model's; linearity splits off the low byte, and gives the table's entries from its
eight one-bit ones. -/
theorem crcStepIsTheBitLoop : Obligations.CrcStepIsTheBitLoop := by
  refine fun crc b => ⟨toNat_crcStep crc b, crcStep_eq_table crc b, ?_⟩
  rw [crcStep_eq_table, crcStep_zero_eq_crcEntry, crcEntry, ← BitVec.xor_assoc, ← BitVec.xor_assoc]
  rfl

/-! ### The laws of the CRC (R101, R105) -/

theorem crc16_append (a b : List Byte) : crc16 (a ++ b) = b.foldl crcStep (crc16 a) := List.foldl_append

theorem crc16_replicate_zero (n : Nat) : crc16 (List.replicate n 0) = 0 := by
  induction n with
  | zero => rfl
  | succ n ih =>
    rw [List.replicate_succ', crc16_append, ih]
    exact crcStep_zero_zero

/-- Linearity over byte sequences of one length, registers and bytes together. -/
theorem foldl_crcStep_xor {a b : List Byte} (hlen : a.length = b.length) (c d : Word16) :
    (List.zipWith (· ^^^ ·) a b).foldl crcStep (c ^^^ d) = a.foldl crcStep c ^^^ b.foldl crcStep d := by
  induction a generalizing b c d with
  | nil =>
    obtain rfl := List.length_eq_zero_iff.mp hlen.symm
    rfl
  | cons x a ih =>
    obtain ⟨y, b, rfl⟩ := List.exists_cons_of_length_eq_add_one hlen.symm
    simp only [List.zipWith_cons_cons, List.foldl_cons, crcStep_xor]
    exact ih (Nat.succ.inj hlen) _ _

/-- A register takes its own two bytes back out: the first leaves the low byte on top, the second leaves nothing. -/
theorem crcStep_own_bytes (c : Word16) : crcStep (crcStep c (crcMSB c)) (crcLSB c) = 0 := by
  have hfirst : crcStep c (crcMSB c) = c <<< 8 := by
    rw [crcStep_eq_table, BitVec.xor_self, crcStep_zero_zero, BitVec.xor_zero]
  have htop : crcMSB (c <<< 8) = crcLSB c := by
    apply BitVec.eq_of_toNat_eq
    rw [toNat_crcMSB, toNat_crcLSB, BitVec.toNat_shiftLeft, Nat.shiftLeft_eq]
    omega
  have hgone : c <<< 8 <<< 8 = 0#16 := by
    rw [← BitVec.shiftLeft_add]
    exact BitVec.shiftLeft_eq_zero le_rfl
  rw [hfirst, crcStep_eq_table, htop, BitVec.xor_self, crcStep_zero_zero, BitVec.xor_zero, hgone]
  rfl

theorem crc16_residue (a : List Byte) : crc16 (a ++ [crcMSB (crc16 a), crcLSB (crc16 a)]) = 0 := by
  rw [crc16_append]
  exact crcStep_own_bytes (crc16 a)

/-! ### Single-byte changes and the CRC (R105) -/

/-- A shift that gives zero had a zero register: a 1 shifted out would leave the polynomial's lowest bit. -/
theorem eq_zero_of_crcShift {c : Word16} (h : crcShift c = 0#16) : c = 0#16 := by
  unfold crcShift at h
  split at h
  · have hbit := congrArg (BitVec.getLsbD · 0) h
    simp at hbit
  · next htop =>
    have hlt : c.toNat < 2 ^ 15 := Nat.not_le.mp (mt (getLsbD_15_iff c).mpr htop)
    bv_omega

theorem crcShift_injective : Function.Injective crcShift := by
  intro a b h
  have hdiff : crcShift (a ^^^ b) = 0#16 := by rw [crcShift_xor, h, BitVec.xor_self]
  exact BitVec.xor_eq_zero_iff.mp (eq_zero_of_crcShift hdiff)

theorem repeat_crcShift_injective (n : Nat) : Function.Injective (Nat.repeat crcShift n) := by
  induction n with
  | zero => exact Function.injective_id
  | succ n ih => exact crcShift_injective.comp ih

/-- A byte moved into the top of a register is read back there. -/
theorem crcStep_injective_byte (c : Word16) : Function.Injective (crcStep c) := by
  intro x y h
  have hword := (BitVec.xor_right_inj c).mp (repeat_crcShift_injective 8 h)
  bv_omega

theorem crcStep_injective_register (b : Byte) : Function.Injective (crcStep · b) := fun _ _ h =>
  (BitVec.xor_left_inj _).mp (repeat_crcShift_injective 8 h)

theorem foldl_crcStep_injective (bs : List Byte) : Function.Injective (bs.foldl crcStep) := by
  induction bs with
  | nil => exact Function.injective_id
  | cons b bs ih => exact ih.comp (crcStep_injective_register b)

/-- The change survives the byte itself, and then every byte after it. -/
theorem crc16_set_ne {a : List Byte} {i : Nat} {b : Byte} (hi : i < a.length) (hb : a[i]? ≠ some b) :
    crc16 (a.set i b) ≠ crc16 a := by
  obtain ⟨pre, c, post, ha, hset, hne⟩ := set_split hi hb
  rw [hset, ha, crc16_append, crc16_append, List.foldl_cons, List.foldl_cons]
  intro h
  exact hne (crcStep_injective_byte _ (foldl_crcStep_injective post h)).symm

/-- Settles O19: linearity of the fold, a zero register kept by zero bytes, and one step injective in register and byte. -/
theorem crcLaws : Obligations.CrcLaws := by
  refine ⟨fun a b hlen => ?_, fun k a => ?_, crc16_residue, fun a i b hi hb => crc16_set_ne hi hb⟩
  · exact foldl_crcStep_xor hlen 0 0
  · rw [crc16_append, crc16_replicate_zero]
    rfl

/-- Settles O18: `crc16` is the left fold of the step. -/
theorem crcTakesBytesInOrder : Obligations.CrcTakesBytesInOrder :=
  ⟨rfl, fun bs b => crc16_append bs [b], by decide +kernel, by decide +kernel⟩

/-! ### The CRC generator's commands (R102 to R104) -/

/-- Settles O14: the state written out is the model's. -/
theorem crcClrClearsRegister : Obligations.CrcClrClearsRegister := ⟨rfl, exec_crcClr⟩

/-- Settles O15: the state written out is the model's. -/
theorem crcByteShiftsByteIn : Obligations.CrcByteShiftsByteIn :=
  ⟨fun _ => rfl, fun s b => exec_crcByte b s, crcStep_zero_zero, by decide, by decide⟩

theorem exec_crcCalc (p : List Byte) (s : State) : exec (.crcCalc p) s = .next (s.respondOk (.word (crc16 p))) := rfl

/-- Settles O16: format L's length bytes, the command's equation, and two of the CRC's laws. -/
theorem crcCalcAnswersCrc : Obligations.CrcCalcAnswersCrc := by
  refine ⟨fun p _ => ?_, fun s p => exec_crcCalc p s, rfl, crc16_replicate_zero, crc16_residue, by decide +kernel⟩
  rw [encode, encodeOperands, encodeLengthL_eq]
  rfl

/-! ### The simple checksum (R106, R107) -/

theorem toNat_neg8 (x : Nat) : (neg8 x).toNat = (256 - x % 256) % 256 := by
  rw [neg8, BitVec.toNat_ofNat]
  exact Nat.mod_mod _ _

theorem add_neg8_mod (x : Nat) : (x + (neg8 x).toNat) % 256 = 0 := by
  rw [toNat_neg8]
  omega

/-- The checksum is the negation of the exact sum: the low byte is all that negation looks at. -/
theorem simpleChecksum_eq (d s h : Byte) (x : List Byte) :
    simpleChecksum d s h x = neg8 (d.toNat + s.toNat + h.toNat + x.length + byteSum x) := by
  rw [simpleChecksum, neg8, neg8, Nat.mod_mod]

/-- Settles O20: negation of the sum, which a number and its negation cancel. -/
theorem simpleChecksumNegatesTheSum : Obligations.SimpleChecksumNegatesTheSum := by
  refine ⟨fun x => ⟨toNat_neg8 x, add_neg8_mod x⟩, rfl, fun d s h x => ⟨simpleChecksum_eq d s h x, ?_⟩, by decide⟩
  rw [simpleChecksum_eq]
  exact add_neg8_mod _

/-! ### The sum of a byte sequence -/

@[simp] theorem byteSum_cons (b : Byte) (bs : List Byte) : byteSum (b :: bs) = b.toNat + byteSum bs := List.sum_cons

@[simp] theorem byteSum_append (a b : List Byte) : byteSum (a ++ b) = byteSum a + byteSum b := by
  rw [byteSum, List.map_append, List.sum_append, byteSum, byteSum]

@[simp] theorem byteSum_nil : byteSum [] = 0 := rfl

theorem byteSum_replicate (n : Nat) (b : Byte) : byteSum (List.replicate n b) = n * b.toNat := by
  rw [byteSum, List.map_replicate, List.sum_replicate, smul_eq_mul]

theorem byteSum_perm {a b : List Byte} (h : a.Perm b) : byteSum a = byteSum b := (h.map _).sum_eq

/-- The fields of a message, their order the wire's, sum to what its checksum negates. -/
theorem byteSum_fields (d s h : Byte) {x : List Byte} (hx : x.length ≤ Config.dataMax) :
    byteSum ([d, lengthByte x, s, h] ++ x) = d.toNat + s.toNat + h.toNat + x.length + byteSum x := by
  simp only [byteSum_append, byteSum_cons, byteSum_nil, toNat_lengthByte_of_le hx]
  omega

/-- No change of one byte leaves the sum as it was mod 256. -/
theorem byteSum_set_ne {a : List Byte} {i : Nat} {b : Byte} (hi : i < a.length) (hb : a[i]? ≠ some b) :
    byteSum (a.set i b) % 256 ≠ byteSum a % 256 := by
  obtain ⟨pre, c, post, ha, hset, hne⟩ := set_split hi hb
  rw [hset, ha]
  simp only [byteSum_append, byteSum_cons]
  bv_omega

/-! ### The sum encoder's commands (R108 to R110) -/

/-- Settles O21: the state written out is the model's. -/
theorem sumClrClearsSum : Obligations.SumClrClearsSum := ⟨rfl, exec_sumClr⟩

/-- Settles O22: addition of bytes is addition mod 256, and a stream ends with the check byte of a sum, which no order changes. -/
theorem sumByteAddsInAnyOrder : Obligations.SumByteAddsInAnyOrder := by
  refine ⟨fun _ => rfl, fun s b v hv => ?_, fun s d src h x order hx hperm => ?_⟩
  · have hsum : v = s.sumAcc + b := by
      rw [hv]
      exact BitVec.eq_of_toNat_eq (by rw [BitVec.toNat_ofNat, BitVec.toNat_add, Nat.mod_mod])
    rw [hsum]
    exact exec_sumByte b s
  · obtain ⟨-, -, -, hstream⟩ := streamsComputeTheChecksums
    obtain ⟨rs, -, hlast, hrun⟩ := hstream order s
    refine ⟨_, hrun, ?_⟩
    have hsum : byteSum order = d.toNat + src.toNat + h.toNat + x.length + byteSum x :=
      (byteSum_perm hperm).trans (byteSum_fields d src h hx)
    rw [List.getLast?_append, hlast, simpleChecksum_eq, ← hsum]
    rfl

theorem exec_sumCalc (d src h : Byte) (x : List Byte) (s : State) :
    exec (.sumCalc d src h x) s = .next (s.respondOk (.byte (simpleChecksum d src h x))) := rfl

/-- Settles O23: format M's bytes, the command's equation, and the corner values. -/
theorem sumCalcAnswersChecksum : Obligations.SumCalcAnswersChecksum := by
  refine ⟨fun _ _ _ _ _ => rfl, fun s d src h x => exec_sumCalc d src h x s, by decide, by decide, ?_, by decide, by decide⟩
  rw [simpleChecksum_eq, byteSum_replicate, List.length_replicate]
  rfl

/-! ### SIMPLE frames (R111) -/

theorem byteSum_encodeFrame_makeSimple (d s h : Byte) {x : List Byte} (hx : x.length ≤ Config.dataMax) :
    byteSum (encodeFrame (makeSimple d s h x)) % 256 = 0 := by
  rw [makeSimple, encodeFrame, byteSum_append, byteSum_fields d s h hx, simpleChecksum_eq, byteSum_cons, byteSum_nil]
  exact add_neg8_mod _

theorem frame_of_build_ok {op : Byte} {v : Variant} {flags d s : Byte} {m m' : Message} {f : List Byte}
    (h : build op v flags d s m = .ok (.built m' f)) : f = encodeFrame m := by
  rcases build_cases op v flags d s m with ⟨-, hb⟩ | ⟨-, -, hb⟩ | ⟨-, -, hb⟩
  · cases hb.symm.trans h
  · cases hb.symm.trans h
  · cases hb.symm.trans h
    rfl

theorem exec_buildSimple (flags d src h : Byte) (x : List Byte) (s : State) : exec (.buildSimple flags d src h x) s =
    .next (s.respond (build Opcode.buildSimple.byte .simple flags d src (makeSimple d src h x))) := s.complete_eq _

/-- Settles O33: the frame answered is the message's, whose sum the checksum cancels; one changed byte changes the sum mod 256. -/
theorem simpleFramesSumToZero : Obligations.SimpleFramesSumToZero := by
  intro s flags d src h x m f hx hexec
  rw [exec_buildSimple] at hexec
  have hbuild : build Opcode.buildSimple.byte .simple flags d src (makeSimple d src h x) = .ok (.built m f) := by
    simpa using congrArg State.responses (Host.Outcome.next.inj hexec)
  obtain rfl := frame_of_build_ok hbuild
  have hzero := byteSum_encodeFrame_makeSimple d src h hx
  exact ⟨hzero, fun i b hi hb hset => byteSum_set_ne hi hb (hset.trans hzero.symm)⟩

end Sys2Proof.Machine

/-! # Proofs for 41_framing.md: the builder and the parser -/

namespace Sys2Proof.Machine

/-! ### Bits under a mask -/

theorem getLsbD_of_and_eq {w : Nat} {a m : BitVec w} (h : a &&& m = m) {i : Nat} (hi : m.getLsbD i = true) :
    a.getLsbD i = true := by
  rw [← h, BitVec.getLsbD_and, Bool.and_eq_true] at hi
  exact hi.1

theorem getLsbD_of_and_eq_zero {w : Nat} {a m : BitVec w} (h : a &&& m = 0#w) {i : Nat} (hi : m.getLsbD i = true) :
    a.getLsbD i = false := by
  have hbit := congrArg (BitVec.getLsbD · i) h
  simpa [hi] using hbit

/-! ### The flags byte (30_encoding.md R80, R84) -/

theorem reservedSet_iff (flags : Byte) : reservedSet flags = true ↔ flags.extractLsb' 3 5 ≠ 0 := bne_iff_ne

theorem reservedSet_eq_false_iff (flags : Byte) : reservedSet flags = false ↔ flags.extractLsb' 3 5 = 0 := bne_eq_false_iff_eq

/-- No reserved bit is set when the five highest bits are masked to zero. -/
theorem reservedSet_of_and_eq_zero {flags : Byte} (h : flags &&& 0b11111000 = 0) : reservedSet flags = false := by
  have hmask : ∀ i < 5, (0b11111000 : Byte).getLsbD (3 + i) = true := by decide
  rw [reservedSet_eq_false_iff]
  ext i hi
  simpa [hi] using getLsbD_of_and_eq_zero h (hmask i hi)

/-- The reserved bits do not include SV. -/
theorem reservedSet_xor_flagSV (flags : Byte) : reservedSet (flags ^^^ 0b10) = reservedSet flags := by
  have hsv : BitVec.extractLsb' 3 5 (0b10 : Byte) = 0 := by decide
  have hfield : (flags ^^^ 0b10).extractLsb' 3 5 = flags.extractLsb' 3 5 := by
    rw [BitVec.extractLsb'_xor, hsv]
    exact BitVec.xor_zero
  rw [reservedSet, hfield, reservedSet]

/-! ### The build mask (R134) -/

theorem getElem_maskBit (failed : Bool) (bit : BitVec 4) (i : Nat) (hi : i < 4) :
    (maskBit failed bit)[i] = (failed && bit[i]) := by
  cases failed with
  | false => exact BitVec.getElem_zero hi
  | true => rfl

@[simp] theorem maskBit_false (bit : BitVec 4) : maskBit false bit = 0#4 := rfl

theorem buildMask_crc (dv : Bool) (d : Byte) (sv : Bool) (src : Byte) (hv : Bool) :
    buildMask .crc dv d sv src hv = maskBit (!dv) 0b0001 ||| maskBit (!hv) 0b0100 := BitVec.or_zero

/-- The two source checks of the SIMPLE variant, of which at most one fails. -/
theorem buildMask_simple (dv : Bool) (d : Byte) (sv : Bool) (src : Byte) (hv : Bool) : buildMask .simple dv d sv src hv =
    maskBit (!dv) 0b0001 ||| maskBit (!hv) 0b0100 ||| (maskBit (!sv) 0b0010 ||| maskBit (sv && decide (src = 0)) 0b1000) := by
  cases sv with
  | false =>
    rw [Bool.false_and, maskBit_false, BitVec.or_zero]
    rfl
  | true =>
    rw [Bool.true_and, Bool.not_true, maskBit_false, BitVec.zero_or]
    rfl

/-- Settles O25: the checks stand at different bits, so each bit is its own check alone. -/
theorem buildMaskReportsEveryFailedCheck : Obligations.BuildMaskReportsEveryFailedCheck := by
  intro v dv d sv src hv
  cases v with
  | crc =>
    rw [buildMask_crc]
    simp [getElem_maskBit]
  | simple =>
    rw [buildMask_simple]
    simp [getElem_maskBit]

theorem buildMask_simple_of_unset (d src : Byte) : buildMask .simple false d false src false = 0b0111 := by
  rw [buildMask_simple, Bool.false_and]
  decide

theorem buildMask_simple_of_source_zero (d : Byte) : buildMask .simple true d true 0 true = 0b1000 := by
  rw [buildMask_simple]
  decide

theorem mask_eq_zero_iff : ∀ mask : BitVec 4, mask = 0 ↔
    mask.getLsbD 0 = false ∧ mask.getLsbD 2 = false ∧ mask.getLsbD 1 = false ∧ mask.getLsbD 3 = false := by decide

/-- Every check passes: the fields the variant needs are set, and a SIMPLE source is not zero. -/
theorem buildMask_eq_zero_iff {v : Variant} {dv sv hv : Bool} {d src : Byte} : buildMask v dv d sv src hv = 0 ↔
    dv = true ∧ hv = true ∧ (v = .simple → sv = true ∧ src ≠ 0) := by
  obtain ⟨hdst, hhdr, hsrc, hzero⟩ := buildMaskReportsEveryFailedCheck v dv d sv src hv
  rw [mask_eq_zero_iff, hdst, hhdr, hsrc, hzero]
  cases v with
  | crc => simp
  | simple => cases sv <;> simp

/-! ### What the BUILD commands answer (R135, R136) -/

theorem exec_buildCrc (flags d src h : Byte) (x : List Byte) (s : State) : exec (.buildCrc flags d src h x) s =
    .next (s.respond (build Opcode.buildCrc.byte .crc flags d src (makeCrc d h x))) := s.complete_eq _

/-- The builder's answer as the spec's chain of conditions. -/
theorem build_eq_ite (op : Byte) (v : Variant) (flags d s : Byte) (m : Message) : build op v flags d s m =
    if flags.extractLsb' 3 5 ≠ 0 then .illegalOperation op
    else if buildMask v (flagDV flags) d (flagSV flags) s (flagHV flags) ≠ 0 then
      .buildError (buildMask v (flagDV flags) d (flagSV flags) s (flagHV flags))
    else .ok (.built m (encodeFrame m)) := by
  simp only [build, reservedSet_iff]

theorem build_of_mask_ne_zero {flags : Byte} (hr : reservedSet flags = false) {v : Variant} {d s : Byte}
    (hmask : buildMask v (flagDV flags) d (flagSV flags) s (flagHV flags) ≠ 0) (op : Byte) (m : Message) :
    build op v flags d s m = .buildError (buildMask v (flagDV flags) d (flagSV flags) s (flagHV flags)) := by
  rw [build_eq_ite, if_neg (not_not.mpr ((reservedSet_eq_false_iff flags).mp hr)), if_pos hmask]

theorem build_of_mask_zero {flags : Byte} (hr : reservedSet flags = false) {v : Variant} {d s : Byte}
    (hmask : buildMask v (flagDV flags) d (flagSV flags) s (flagHV flags) = 0) (op : Byte) (m : Message) :
    build op v flags d s m = .ok (.built m (encodeFrame m)) := by
  rw [build_eq_ite, if_neg (not_not.mpr ((reservedSet_eq_false_iff flags).mp hr)), if_neg (not_not.mpr hmask)]

/-- The CRC builder looks at neither SV nor the source byte. -/
theorem build_crc_xor_flagSV (op flags d s s' : Byte) (m : Message) :
    build op .crc (flags ^^^ 0b10) d s' m = build op .crc flags d s m := by
  have hdv : flagDV (flags ^^^ 0b10) = flagDV flags := by simp [flagDV]
  have hhv : flagHV (flags ^^^ 0b10) = flagHV flags := by simp [flagHV]
  rw [build, build, reservedSet_xor_flagSV, hdv, hhv, buildMask_crc, buildMask_crc]

theorem build_simple_of_no_flags (op d src : Byte) (m : Message) : build op .simple 0 d src m = .buildError 0b0111 := by
  have hreserved : reservedSet 0 = false := by decide
  have hmask : buildMask .simple (flagDV 0) d (flagSV 0) src (flagHV 0) = 0b0111 := buildMask_simple_of_unset d src
  have hne : buildMask .simple (flagDV 0) d (flagSV 0) src (flagHV 0) ≠ 0 := by
    rw [hmask]
    decide
  rw [build_of_mask_ne_zero hreserved hne, hmask]

/-- Settles O26: the builder's chain of conditions, with the CRC variant's mask and frame. -/
theorem buildCrcAnswers : Obligations.BuildCrcAnswers := by
  intro s flags d src h x _
  refine ⟨rfl, ⟨?_, ?_, length_fields _ _ _ _ _ _⟩, fun src' => ?_⟩
  · rw [exec_buildCrc, build_eq_ite]
    rfl
  · rw [buildMask_eq_zero_iff]
    tauto
  · rw [exec_buildCrc, exec_buildCrc, build_crc_xor_flagSV]

/-- Settles O27: the builder's chain of conditions, with the SIMPLE variant's mask and frame. -/
theorem buildSimpleAnswers : Obligations.BuildSimpleAnswers := by
  intro s flags d src h x _
  refine ⟨rfl, ⟨?_, ?_, ?_⟩, ?_⟩
  · rw [exec_buildSimple, build_eq_ite]
    rfl
  · rw [buildMask_eq_zero_iff]
    tauto
  · intro hdv hsv hhv hsrc
    rw [hdv, hsv, hhv, hsrc]
    exact buildMask_simple_of_source_zero d
  · rw [exec_buildSimple, build_simple_of_no_flags]
    rfl

theorem exec_buildCrc_of_fields_set {flags : Byte} (hr : reservedSet flags = false) (hdv : flagDV flags = true)
    (hhv : flagHV flags = true) (d src h : Byte) (x : List Byte) (s : State) : exec (.buildCrc flags d src h x) s =
      .next { s with responses := s.responses ++ [.ok (.built (makeCrc d h x) (encodeFrame (makeCrc d h x)))] } := by
  have hmask : buildMask .crc (flagDV flags) d (flagSV flags) src (flagHV flags) = 0 :=
    buildMask_eq_zero_iff.mpr ⟨hdv, hhv, nofun⟩
  rw [exec_buildCrc, build_of_mask_zero hr hmask]
  rfl

theorem exec_buildSimple_of_fields_set {flags src : Byte} (hr : reservedSet flags = false) (hdv : flagDV flags = true)
    (hhv : flagHV flags = true) (hsv : flagSV flags = true) (hsrc : src ≠ 0) (d h : Byte) (x : List Byte) (s : State) :
    exec (.buildSimple flags d src h x) s =
      .next { s with responses := s.responses ++ [.ok (.built (makeSimple d src h x) (encodeFrame (makeSimple d src h x)))] } := by
  have hmask : buildMask .simple (flagDV flags) d (flagSV flags) src (flagHV flags) = 0 :=
    buildMask_eq_zero_iff.mpr ⟨hdv, hhv, fun _ => ⟨hsv, hsrc⟩⟩
  rw [exec_buildSimple, build_of_mask_zero hr hmask]
  rfl

/-- Settles O28: the masked flags have their bits set, so no check fails. -/
theorem buildCompletesWithItsFieldsSet : Obligations.BuildCompletesWithItsFieldsSet := by
  intro s flags d src h x _ hreserved hfields
  have hr := reservedSet_of_and_eq_zero hreserved
  have hdv : flagDV flags = true := getLsbD_of_and_eq hfields rfl
  have hhv : flagHV flags = true := getLsbD_of_and_eq hfields rfl
  refine ⟨exec_buildCrc_of_fields_set hr hdv hhv d src h x s, fun hsource hsrc => ?_⟩
  have hsv : flagSV flags = true := getLsbD_of_and_eq hsource rfl
  exact exec_buildSimple_of_fields_set hr hdv hhv hsv hsrc d h x s

/-! ### The framing checks (R137, R138) -/

/-- Steps 3 and 4 of the parser of a variant. -/
def check : Variant → List Byte → Response
  | .crc => checkCrc
  | .simple => checkSimple

theorem parse_eq_parseFrame (v : Variant) (f : List Byte) : parse v f = parseFrame f (check v f) := by
  cases v <;> rfl

/-- Where the framing checks pass, the checksum check answers. -/
theorem parse_of_length_eq (v : Variant) {f : List Byte} (h5 : 5 ≤ f.length) (hl : f.length = 5 + (declaredLength f).toNat) :
    parse v f = check v f := by
  have hcases := parseFrame_cases f (check v f)
  rw [parse_eq_parseFrame]
  simpa [Nat.not_lt.mpr h5, ← hl, h5] using hcases

theorem parse_of_length_ne (v : Variant) {f : List Byte} (h5 : 5 ≤ f.length) (hl : f.length ≠ 5 + (declaredLength f).toNat) :
    parse v f = .framingLengthMismatch (declaredLength f) f.length := by
  have hcases := parseFrame_cases f (check v f)
  rw [parse_eq_parseFrame]
  simpa [Nat.not_lt.mpr h5, hl, h5] using hcases

theorem parse_of_short (v : Variant) {f : List Byte} (h : f.length < 5) : parse v f = .framingTooShort f.length := by
  rw [parse_eq_parseFrame]
  exact if_pos h

theorem exec_parseCommand_of_parse {v : Variant} {f : List Byte} {r : Response} (h : parse v f = r) (s : State) :
    exec (parseCommand v f) s = .next { s with responses := s.responses ++ [r] } := by
  rw [exec_parseCommand, h]
  rfl

/-- Settles O34: the first framing check. -/
theorem parseRejectsShortInput : Obligations.ParseRejectsShortInput := fun v _ s h =>
  exec_parseCommand_of_parse (parse_of_short v h) s

theorem declaredLength_of_getElem? {f : List Byte} {n : Byte} (h : f[1]? = some n) : declaredLength f = n := by
  rw [declaredLength, byteAt, List.getD_eq_getElem?_getD, h]
  rfl

/-- Settles O35: the second framing check; a length byte says at most 255, so an input longer than 260 bytes fails it. -/
theorem parseRejectsLengthMismatch : Obligations.ParseRejectsLengthMismatch := by
  have hmismatch : ∀ (v : Variant) (f : List Byte) (n : Byte) (s : State), 5 ≤ f.length → f[1]? = some n →
      f.length ≠ 5 + n.toNat →
      exec (parseCommand v f) s = .next { s with responses := s.responses ++ [.framingLengthMismatch n f.length] } := by
    intro v f n s h5 hn hl
    obtain rfl := declaredLength_of_getElem? hn
    exact exec_parseCommand_of_parse (parse_of_length_ne v h5 hl) s
  refine ⟨hmismatch, fun v f s hlong => ?_⟩
  have h1 : f[1]? = some f[1] := List.getElem?_eq_getElem (by omega)
  have hlt := f[1].isLt
  exact ⟨f[1], h1, hmismatch v f f[1] s (by omega) h1 (by omega)⟩

/-! ### The checksum checks (R139 to R142) -/

/-- An input written out by its fields passes the framing checks when its length byte says the number of data bytes. -/
theorem parse_fields (v : Variant) {d n b h c : Byte} {x : List Byte} (hn : n.toNat = x.length) :
    parse v ([d, n, b, h] ++ x ++ [c]) = check v ([d, n, b, h] ++ x ++ [c]) := by
  have hlen := length_fields d n b h c x
  have hdecl : declaredLength ([d, n, b, h] ++ x ++ [c]) = n := rfl
  exact parse_of_length_eq v (by omega) (by rw [hlen, hdecl, hn])

theorem check_crc_fields {d n lsb h msb : Byte} {x : List Byte} (hn : n.toNat = x.length) :
    check .crc ([d, n, lsb, h] ++ x ++ [msb]) =
      if crc16 ([d, n, h] ++ x) ≠ joinCrc msb lsb then .crcMismatch (crc16 ([d, n, h] ++ x)) (joinCrc msb lsb)
      else .ok (.parsed (.crc d h x (crc16 ([d, n, h] ++ x)))) := by
  have hmake : makeCrc d h x = .crc d h x (crc16 ([d, n, h] ++ x)) := by rw [makeCrc, crcFeed, lengthByte_eq_of_toNat hn]
  rw [check, checkCrc, frameData_fields hn, byteAt_last_fields, ← hmake]
  rfl

theorem check_simple_fields {d n src h c : Byte} {x : List Byte} (hn : n.toNat = x.length) :
    check .simple ([d, n, src, h] ++ x ++ [c]) =
      if simpleChecksum d src h x ≠ c then .simpleMismatch (simpleChecksum d src h x) c
      else .ok (.parsed (.simple d src h x (simpleChecksum d src h x))) := by
  rw [check, checkSimple, frameData_fields hn, byteAt_last_fields]
  rfl

/-- Settles O36: the fields are where the parser reads them. -/
theorem parseCrcComparesChecksums : Obligations.ParseCrcComparesChecksums := fun s _ _ _ _ _ _ hn =>
  exec_parseCommand_of_parse (v := .crc) ((parse_fields .crc hn).trans (check_crc_fields hn)) s

/-- Settles O37: the fields are where the parser reads them. -/
theorem parseSimpleComparesChecksums : Obligations.ParseSimpleComparesChecksums := fun s _ _ _ _ _ _ hn =>
  exec_parseCommand_of_parse (v := .simple) ((parse_fields .simple hn).trans (check_simple_fields hn)) s

/-! ### Valid frames (R143 to R145) -/

/-- A frame with its CRC is accepted: the CRC is put together again from its two bytes. -/
theorem parse_crc_of_valid {d n h : Byte} {x : List Byte} {c : Word16} (hn : n.toNat = x.length)
    (hc : c = crc16 ([d, n, h] ++ x)) :
    parse .crc ([d, n, crcLSB c, h] ++ x ++ [crcMSB c]) = .ok (.parsed (.crc d h x c)) := by
  rw [parse_fields .crc hn, check_crc_fields hn, joinCrc_crcMSB_crcLSB, ← hc, if_neg (not_not.mpr rfl)]

theorem parse_simple_of_valid {d n src h : Byte} {x : List Byte} (hn : n.toNat = x.length) :
    parse .simple ([d, n, src, h] ++ x ++ [simpleChecksum d src h x]) =
      .ok (.parsed (.simple d src h x (simpleChecksum d src h x))) := by
  rw [parse_fields .simple hn, check_simple_fields hn, if_neg (not_not.mpr rfl)]

/-- Settles O38: both checksum comparisons are of equal values. -/
theorem parseCompletesOnValidFrames : Obligations.ParseCompletesOnValidFrames := fun s _ _ _ _ _ hn =>
  ⟨exec_parseCommand_of_parse (v := .crc) (parse_crc_of_valid hn rfl) s,
    exec_parseCommand_of_parse (v := .simple) (parse_simple_of_valid hn) s⟩

/-- Settles O39: the builder's frame is a valid one. -/
theorem parseOfBuildRoundTrip : Obligations.ParseOfBuildRoundTrip := by
  intro s flags d src h x hx hreserved hdv hhv
  have hr := (reservedSet_eq_false_iff flags).mpr hreserved
  have hn := toNat_lengthByte_of_le hx
  refine ⟨?_, fun hsv hsrc => ?_⟩
  · exact ⟨_, _, _, rfl, exec_buildCrc_of_fields_set hr hdv hhv d src h x s,
      exec_parseCommand_of_parse (v := .crc) (parse_crc_of_valid hn rfl) _⟩
  · exact ⟨_, _, _, rfl, exec_buildSimple_of_fields_set hr hdv hhv hsv hsrc d h x s,
      exec_parseCommand_of_parse (v := .simple) (parse_simple_of_valid hn) _⟩

/-! ### Parsing with the wrong variant (R147) -/

theorem check_status (v : Variant) (f : List Byte) : (check v f).status = .ok ∨ (check v f).status = .checksumMismatch := by
  cases v with
  | crc =>
    rw [check, checkCrc]
    split
    · exact .inr rfl
    · exact .inl rfl
  | simple =>
    rw [check, checkSimple]
    split
    · exact .inr rfl
    · exact .inl rfl

/-- Settles O41: the framing checks are the same in both variants, and after them only the checksum check can fail. -/
theorem wrongVariantFailsOnlyTheChecksum : Obligations.WrongVariantFailsOnlyTheChecksum := by
  refine ⟨fun v w f s m hexec => ?_, fun s => ?_⟩
  · obtain ⟨h5, hl⟩ := length_of_parse_ok (parse_eq_of_exec hexec)
    exact ⟨check w f, exec_parseCommand_of_parse (parse_of_length_eq w h5 hl) s, check_status w f⟩
  · have hparse : parse .simple [0x02, 0x02, 0xB5, 0xE7, 0xFF, 0x00, 0x8F] = .simpleMismatch 0x61 0x8F := by decide
    exact exec_parseCommand_of_parse (v := .simple) hparse s

/-! ### Single-byte changes (R146) -/

/-- The bytes of a CRC frame in the order of the CRC's residue law: the low CRC byte, at index 2, moved behind the high one. -/
def residueOrder (f : List Byte) : List Byte := f.eraseIdx 2 ++ [byteAt f 2]

/-- What the variant's own law makes of all the bytes of a frame: their CRC in the residue order (40_checksum.md R105), or their sum mod
256 (R111). -/
def residue : Variant → List Byte → Nat
  | .crc, f => (crc16 (residueOrder f)).toNat
  | .simple, f => byteSum f % 256

theorem crc16_append_bytes_eq_zero_iff (a : List Byte) (msb lsb : Byte) :
    crc16 (a ++ [msb, lsb]) = 0 ↔ crc16 a = joinCrc msb lsb := by
  have hmsb : crcMSB (joinCrc msb lsb) = msb := by
    apply BitVec.eq_of_toNat_eq
    rw [toNat_crcMSB, toNat_joinCrc]
    omega
  have hlsb : crcLSB (joinCrc msb lsb) = lsb := by
    apply BitVec.eq_of_toNat_eq
    rw [toNat_crcLSB, toNat_joinCrc]
    omega
  have hown : [msb, lsb].foldl crcStep (joinCrc msb lsb) = 0 := by
    simpa [hmsb, hlsb] using crcStep_own_bytes (joinCrc msb lsb)
  rw [crc16_append, ← hown]
  exact (foldl_crcStep_injective [msb, lsb]).eq_iff

theorem neg8_eq_iff (k : Nat) (c : Byte) : neg8 k = c ↔ (k + c.toNat) % 256 = 0 := by
  have hlt := c.isLt
  rw [← BitVec.toNat_inj, toNat_neg8]
  omega

/-- The checksum check passes exactly when the residue is 0. -/
theorem check_status_ok_iff (v : Variant) {f : List Byte} (h5 : 5 ≤ f.length) (hl : f.length = 5 + (declaredLength f).toNat) :
    (check v f).status = .ok ↔ residue v f = 0 := by
  obtain ⟨d, n, b, h, x, c, rfl, hn⟩ := exists_fields_of_length h5 hl
  cases v with
  | crc =>
    have horder : residueOrder ([d, n, b, h] ++ x ++ [c]) = ([d, n, h] ++ x) ++ [c, b] := by simp [residueOrder, byteAt]
    have hres : residue .crc ([d, n, b, h] ++ x ++ [c]) = 0 ↔ crc16 ([d, n, h] ++ x) = joinCrc c b := by
      rw [residue, horder, ← crc16_append_bytes_eq_zero_iff, ← BitVec.toNat_inj]
      rfl
    rw [check_crc_fields hn, hres]
    split
    · next hne => exact iff_of_false nofun hne
    · next heq => exact iff_of_true rfl (not_not.mp heq)
  | simple =>
    have hx : x.length ≤ Config.dataMax := hn ▸ Nat.le_of_lt_succ n.isLt
    have hres : residue .simple ([d, n, b, h] ++ x ++ [c]) = 0 ↔ simpleChecksum d b h x = c := by
      rw [residue, byteSum_append, ← lengthByte_eq_of_toNat hn, byteSum_fields d b h hx, byteSum_cons, byteSum_nil,
        simpleChecksum_eq, neg8_eq_iff]
      rfl
    rw [check_simple_fields hn, hres]
    split
    · next hne => exact iff_of_false nofun hne
    · next heq => exact iff_of_true rfl (not_not.mp heq)

/-- A change of one byte of a frame is a change of one byte in the residue's order. -/
theorem residueOrder_set {f : List Byte} {i : Nat} (h3 : 3 ≤ f.length) (hi : i < f.length) (b : Byte) :
    ∃ j, j < (residueOrder f).length ∧ (residueOrder f)[j]? = f[i]? ∧ residueOrder (f.set i b) = (residueOrder f).set j b := by
  match f, h3 with
  | d :: n :: l :: r, _ =>
    have horder : ∀ d n l r, residueOrder (d :: n :: l :: r) = d :: n :: (r ++ [l]) := fun _ _ _ _ => rfl
    match i with
    | 0 => exact ⟨0, by simp [horder], rfl, rfl⟩
    | 1 => exact ⟨1, by simp [horder], rfl, rfl⟩
    | 2 => exact ⟨r.length + 2, by simp [horder], by simp [horder], by simp [horder]⟩
    | k + 3 =>
      have hk : k < r.length := by simpa using hi
      refine ⟨k + 2, ?_, ?_, ?_⟩
      · simp [horder, hk.le]
      · simp [horder, List.getElem?_append_left hk]
      · simp [horder, List.set_append_left _ _ hk]

theorem residue_set_ne (v : Variant) {f : List Byte} {i : Nat} {b : Byte} (h3 : 3 ≤ f.length) (hi : i < f.length)
    (hb : f[i]? ≠ some b) : residue v (f.set i b) ≠ residue v f := by
  cases v with
  | crc =>
    obtain ⟨j, hj, hget, hset⟩ := residueOrder_set h3 hi b
    rw [residue, residue, hset]
    exact mt BitVec.eq_of_toNat_eq (crc16_set_ne hj (hget ▸ hb))
  | simple => exact byteSum_set_ne hi hb

theorem declaredLength_set {f : List Byte} {i : Nat} (hi : i ≠ 1) (b : Byte) : declaredLength (f.set i b) = declaredLength f := by
  rw [declaredLength, declaredLength, byteAt, byteAt, List.getD_eq_getElem?_getD, List.getD_eq_getElem?_getD,
    List.getElem?_set_ne hi]

/-- Another length byte declares another length than the input has. -/
theorem parse_set_lengthByte (v : Variant) {f : List Byte} {b : Byte} (h5 : 5 ≤ f.length)
    (hl : f.length = 5 + (declaredLength f).toNat) (hb : f[1]? ≠ some b) :
    parse v (f.set 1 b) = .framingLengthMismatch b f.length := by
  have h1 : f[1]? = some f[1] := List.getElem?_eq_getElem (by omega)
  have hdecl : declaredLength (f.set 1 b) = b := declaredLength_of_getElem? (List.getElem?_set_self (by omega))
  rw [declaredLength_of_getElem? h1] at hl
  have hne : f[1].toNat ≠ b.toNat := fun h => hb (h1.trans (congrArg some (BitVec.eq_of_toNat_eq h)))
  have hlen : (f.set 1 b).length = f.length := List.length_set
  have hmismatch := parse_of_length_ne v (f := f.set 1 b) (by omega) (by rw [hlen, hdecl]; omega)
  rwa [hdecl, hlen] at hmismatch

/-- Any other byte leaves the length right and the residue wrong. -/
theorem parse_set_status {v : Variant} {f : List Byte} {p : Payload} (hok : parse v f = .ok p) {i : Nat} {b : Byte}
    (hi : i < f.length) (hi1 : i ≠ 1) (hb : f[i]? ≠ some b) : (parse v (f.set i b)).status = .checksumMismatch := by
  obtain ⟨h5, hl⟩ := length_of_parse_ok hok
  have hzero : residue v f = 0 := by
    rw [← check_status_ok_iff v h5 hl, ← parse_of_length_eq v h5 hl, hok]
    rfl
  have hlen : (f.set i b).length = f.length := List.length_set
  have h5' : 5 ≤ (f.set i b).length := hlen.symm ▸ h5
  have hl' : (f.set i b).length = 5 + (declaredLength (f.set i b)).toNat := by rw [hlen, declaredLength_set hi1, hl]
  have hnot : (check v (f.set i b)).status ≠ .ok := by
    rw [Ne, check_status_ok_iff v h5' hl', ← hzero]
    exact residue_set_ne v (by omega) hi hb
  rw [parse_of_length_eq v h5' hl']
  exact (check_status v _).resolve_left hnot

/-- Settles O40: a changed length byte fails the length check; any other changed byte moves the residue off 0. -/
theorem singleByteChangeIsDetected : Obligations.SingleByteChangeIsDetected := by
  intro v f s m i b hexec hi hb
  have hok := parse_eq_of_exec hexec
  refine ⟨parse v (f.set i b), exec_parseCommand_of_parse rfl s, ?_⟩
  split
  · next hi1 =>
    subst hi1
    obtain ⟨h5, hl⟩ := length_of_parse_ok hok
    exact parse_set_lengthByte v h5 hl hb
  · next hi1 => exact parse_set_status hok hi hi1 hb

end Sys2Proof.Machine

/-! # Proofs for 42_reconciler.md: the forward distance, FEED, and delivery -/

namespace Sys2Proof.Machine

/-! ### The forward distance (R170, R171) -/

theorem toNat_fwdDist (a b : Byte) : (fwdDist a b).toNat = (b.toNat + 256 - a.toNat) % 256 := by
  rw [fwdDist]
  bv_omega

/-- The distance between two event counts, as far as 8-bit counters tell it. -/
theorem toNat_fwdDist_ofNat {n m : Nat} (h : n ≤ m) :
    (fwdDist (BitVec.ofNat 8 n) (BitVec.ofNat 8 m)).toNat = (m - n) % 256 := by
  rw [toNat_fwdDist, BitVec.toNat_ofNat, BitVec.toNat_ofNat]
  omega

/-- Two counters at distance 0 are equal (R173). -/
theorem eq_iff_distance_eq_zero (a b : Byte) : b = a ↔ (b.toNat + 256 - a.toNat) % 256 = 0 := by
  constructor <;> intro h <;> bv_omega

theorem exec_fwdDist (a b : Byte) (s : State) : exec (.fwdDist a b) s = .next (s.respondOk (.byte (fwdDist a b))) := rfl

/-- Settles O48: subtraction of bytes is subtraction mod 256, and the command writes nothing. -/
theorem fwdDistAnswersForwardDistance : Obligations.FwdDistAnswersForwardDistance :=
  ⟨toNat_fwdDist, fun _ _ => rfl, fun s a b => exec_fwdDist a b s, fun a => BitVec.sub_self a,
    by decide, by decide, by decide, by decide⟩

/-! ### The state after a FEED (R173, R176, R177) -/

/-- Pushing the snapshot on a ring within its capacity: a full ring drops its oldest entry (R176). -/
theorem push_of_length_le {cap : Nat} {h : List EventSnapshot} (hc : 1 ≤ cap) (hl : h.length ≤ cap) (S : EventSnapshot) :
    push cap h S = if h.length = cap then h.tail ++ [S] else h ++ [S] := by
  split
  · next hfull =>
    subst hfull
    cases h with
    | nil => exact absurd hc (Nat.not_succ_le_zero 0)
    | cons x xs => exact push_of_full S
  · next hne => exact push_of_room (Nat.lt_of_le_of_ne hl hne) S

/-- Settles O49: the seeding FEED pushes the snapshot on an empty ring, which has room for it. -/
theorem firstFeedSeeds : Obligations.FirstFeedSeeds := by
  intro s S hi
  rw [exec_feed, State.feed_of_uninitialized hi, State.accept, push_of_room one_le_histN]
  rfl

/-- Settles O50: at distance 0 the counters are equal, and the FEED of the counter last seen writes nothing. -/
theorem feedOfSameCounterDoesNothing : Obligations.FeedOfSameCounterDoesNothing := by
  intro s S hi hd
  rw [exec_feed, State.feed_of_same_counter hi ((eq_iff_distance_eq_zero _ _).mpr hd)]
  rfl

/-! ### The items of a FEED (R174, R175) -/

theorem take_eq_filterMap_range {α : Type} (l : List α) (k : Nat) : l.take k = (List.range k).filterMap (l[·]?) := by
  induction k with
  | zero => rfl
  | succ k ih =>
    have hlast : [k].filterMap (l[·]?) = l[k]?.toList := by
      rw [List.filterMap_cons, List.filterMap_nil]
      cases l[k]? <;> rfl
    rw [List.take_add_one, List.range_succ, List.filterMap_append, ← ih, hlast]

theorem feedItems_of_le {diff : Nat} (h : diff ≤ Config.bufferCapacity) (P S : EventSnapshot) : feedItems diff P S = replay diff S := by
  rw [feedItems, lossItems, if_neg (Nat.not_lt.mpr h), List.nil_append, Nat.min_eq_left h]

theorem feedItems_of_lt {diff : Nat} (h : Config.bufferCapacity < diff) (P S : EventSnapshot) :
    feedItems diff P S = .loss (diff - Config.bufferCapacity) P S :: replay Config.bufferCapacity S := by
  rw [feedItems, lossItems, if_pos h, Nat.min_eq_right h.le, List.singleton_append]

/-- A replay by the indices of its records, from `k - 1` down to 0 (R175). -/
theorem replay_eq_filterMap (k : Nat) (S : EventSnapshot) :
    replay k S = ((List.range k).reverse.filterMap (S.records[·]?)).map .event := by
  rw [replay, take_eq_filterMap_range, List.filterMap_reverse]

/-- Settles O51: the ring is within its capacity by R27, its newest entry is the one the loss names, and the replay reads the records by
their indices. -/
theorem feedOfNewCounterReplays : Obligations.FeedOfNewCounterReplays := by
  intro s S P diff hinv hi hP hdiff hne
  obtain ⟨-, -, hlen⟩ := hinv
  obtain ⟨-, hle⟩ := hlen hi
  have hc : S.counter ≠ s.lastCounter := fun h => hne (hdiff.trans ((eq_iff_distance_eq_zero _ _).mp h))
  rw [exec_feed, State.feed_of_new_counter hi hc, newest_of_getLast? hP, toNat_fwdDist, ← hdiff, feedItems, replay_eq_filterMap,
    State.accept, push_of_length_le one_le_histN hle, ← hi]
  rfl

/-- What a FEED answers once initialized. A FEED of the counter last seen is no exception: its items for distance 0 are none. -/
theorem exec_feed_of_initialized {s : State} (hi : s.initialized = true) (S : EventSnapshot) :
    ∃ t, exec (.feed S) s = .next t ∧ t.initialized = true ∧ t.lastCounter = S.counter ∧
      t.responses = s.responses ++ [.ok (.items (feedItems (fwdDist s.lastCounter S.counter).toNat
        (newest (Config.absentSnapshot s.responses.length) s.history) S))] := by
  by_cases hc : S.counter = s.lastCounter
  · refine ⟨_, exec_feed S s, State.feed_initialized s _ _ S, ?_, ?_⟩ <;> rw [State.feed_of_same_counter hi hc]
    · exact hc.symm
    · rw [hc, fwdDist, BitVec.sub_self]
      rfl
  · refine ⟨_, exec_feed S s, State.feed_initialized s _ _ S, ?_, ?_⟩ <;> rw [State.feed_of_new_counter hi hc] <;> rfl

/-! ### The events a snapshot holds (R178) -/

/-- A FEED of a device's snapshot after one at count `n` sees the number of new events mod 256. -/
theorem IsSnapshotOf.toNat_fwdDist {log : Nat → EventRecord} {n m : Nat} {S : EventSnapshot} (h : IsSnapshotOf log m S) {c : Byte}
    (hc : c = BitVec.ofNat 8 n) (hnm : n ≤ m) : (fwdDist c S.counter).toNat = (m - n) % 256 := by
  obtain ⟨hcounter, -⟩ := h
  rw [hc, hcounter, toNat_fwdDist_ofNat hnm]

/-- The newest `k` records of a device's snapshot, oldest first, are its last `k` events. -/
theorem IsSnapshotOf.reverse_take_records {log : Nat → EventRecord} {m : Nat} {S : EventSnapshot} (h : IsSnapshotOf log m S) {k : Nat}
    (hk : k ≤ Config.bufferCapacity) (hkm : k ≤ m) :
    (S.records.take k).reverse = (List.range k).map fun j => log (m - k + 1 + j) := by
  obtain ⟨-, hrec⟩ := h
  have hlen : (S.records.take k).length = k := by rw [List.length_take]; exact Nat.min_eq_left hk
  apply List.ext_getElem?
  intro j
  by_cases hj : j < k
  · have hidx : k - 1 - j < k := by omega
    have hnum : m - (k - 1 - j) = m - k + 1 + j := by omega
    rw [List.getElem?_reverse (hlen.symm ▸ hj), hlen, List.getElem?_take_of_lt hidx,
      hrec _ (hidx.trans_le hk) (hidx.trans_le hkm), hnum]
    simp [hj]
  · rw [List.getElem?_eq_none (by simpa [hlen] using hj), List.getElem?_eq_none (by simpa using hj)]

/-- The replay of a device's snapshot emits its last events by number. -/
theorem replay_of_isSnapshotOf {log : Nat → EventRecord} {m : Nat} {S : EventSnapshot} (h : IsSnapshotOf log m S) {k : Nat}
    (hk : k ≤ Config.bufferCapacity) (hkm : k ≤ m) :
    replay k S = (List.range k).map fun j => .event (log (m - k + 1 + j)) := by
  rw [replay, h.reverse_take_records hk hkm, List.map_map]
  rfl

/-- The items of a FEED after `m - n` new events: all of them as events, or a loss and the last 5. -/
theorem feedItems_of_isSnapshotOf {log : Nat → EventRecord} {n m : Nat} {S : EventSnapshot} (h : IsSnapshotOf log m S) (hnm : n ≤ m)
    (P : EventSnapshot) : feedItems (m - n) P S =
      if m - n ≤ 5 then (List.range (m - n)).map fun j => .event (log (n + 1 + j))
      else .loss (m - n - 5) P S :: (List.range 5).map fun j => .event (log (m - 4 + j)) := by
  split
  · next hfew => rw [feedItems_of_le hfew, replay_of_isSnapshotOf h hfew (Nat.sub_le m n), Nat.sub_sub_self hnm]
  · next hmany =>
    have h5 : 5 < m - n := Nat.lt_of_not_le hmany
    have hnum : m - Config.bufferCapacity + 1 = m - 4 := by
      rw [Config.bufferCapacity]
      omega
    rw [feedItems_of_lt h5, replay_of_isSnapshotOf h le_rfl (h5.le.trans (Nat.sub_le m n)), hnum]
    rfl

/-- Settles O56: fewer than 256 new events are the counters' distance, and the items are known for every number of them. -/
theorem feedEmitsEventsByNumber : Obligations.FeedEmitsEventsByNumber := by
  intro log n m s S P hi hP hn hlt h256 hS
  obtain ⟨t, ht, -, -, hresp⟩ := exec_feed_of_initialized hi S
  rw [newest_of_getLast? hP, hS.toNat_fwdDist hn hlt.le, Nat.mod_eq_of_lt h256, feedItems_of_isSnapshotOf hS hlt.le] at hresp
  exact ⟨t, ht, hresp⟩

/-! ### What responses account for (R182) -/

theorem accounted_append (rs rs' : List Response) : accounted (rs ++ rs') = accounted rs ++ accounted rs' := List.flatMap_append

theorem accounted_items (out : List Output) : accounted [.ok (.items out)] = out.flatMap Output.accounts := List.append_nil _

theorem accounts_lossItems (diff : Nat) (P S : EventSnapshot) :
    (lossItems diff P S).flatMap Output.accounts = List.replicate (diff - Config.bufferCapacity) none := by
  rw [lossItems]
  split
  · exact List.append_nil _
  · next hfew => rw [Nat.sub_eq_zero_of_le (Nat.not_lt.mp hfew)]; rfl

theorem accounts_replay (k : Nat) (S : EventSnapshot) :
    (replay k S).flatMap Output.accounts = (S.records.take k).reverse.map some := by
  rw [replay, List.flatMap_map, List.map_eq_flatMap]
  rfl

theorem accounted_feedItems (diff : Nat) (P S : EventSnapshot) : accounted [.ok (.items (feedItems diff P S))] =
    List.replicate (diff - Config.bufferCapacity) none ++ (S.records.take (min diff Config.bufferCapacity)).reverse.map some := by
  rw [accounted_items, feedItems, List.flatMap_append, accounts_lossItems, accounts_replay]

/-- A FEED accounts for as many events as its distance, whatever its records. -/
theorem length_accounted_feedItems (diff : Nat) (P S : EventSnapshot) :
    (accounted [.ok (.items (feedItems diff P S))]).length = diff := by
  have hrec : S.records.length = Config.bufferCapacity := rfl
  rw [accounted_feedItems, List.length_append, List.length_replicate, List.length_map, List.length_reverse, List.length_take, hrec]
  omega

/-- An account of the events `n + 1` to `m`: one entry each, in order, its record or a lost event. -/
def AccountsFor (log : Nat → EventRecord) (n m : Nat) (l : List (Option EventRecord)) : Prop :=
  n + l.length = m ∧ ∀ j e, l[j]? = some (some e) → e = log (n + 1 + j)

theorem AccountsFor.nil (log : Nat → EventRecord) (n : Nat) : AccountsFor log n n [] := ⟨rfl, nofun⟩

/-- Accounts of consecutive stretches of events join. -/
theorem AccountsFor.append {log : Nat → EventRecord} {n m p : Nat} {l l' : List (Option EventRecord)} (h : AccountsFor log n m l)
    (h' : AccountsFor log m p l') : AccountsFor log n p (l ++ l') := by
  obtain ⟨hlen, hrec⟩ := h
  obtain ⟨hlen', hrec'⟩ := h'
  refine ⟨by rw [List.length_append]; omega, fun j e he => ?_⟩
  by_cases hj : j < l.length
  · rw [List.getElem?_append_left hj] at he
    exact hrec j e he
  · rw [List.getElem?_append_right (Nat.not_lt.mp hj)] at he
    have hnum : m + 1 + (j - l.length) = n + 1 + j := by omega
    exact hnum ▸ hrec' _ e he

theorem accountsFor_replicate_none (log : Nat → EventRecord) {n m k : Nat} (h : n + k = m) :
    AccountsFor log n m (List.replicate k none) := by
  refine ⟨by rw [List.length_replicate, h], fun j e he => ?_⟩
  cases List.eq_of_mem_replicate (List.mem_of_getElem? he)

theorem IsSnapshotOf.accountsFor_records {log : Nat → EventRecord} {m : Nat} {S : EventSnapshot} (h : IsSnapshotOf log m S) {k : Nat}
    (hk : k ≤ Config.bufferCapacity) (hkm : k ≤ m) : AccountsFor log (m - k) m ((S.records.take k).reverse.map some) := by
  rw [h.reverse_take_records hk hkm]
  refine ⟨by rw [List.length_map, List.length_map, List.length_range]; exact Nat.sub_add_cancel hkm, fun j e he => ?_⟩
  have hj : j < k := by simpa using (List.getElem?_eq_some_iff.mp he).1
  rw [List.map_map, List.getElem?_map, List.getElem?_range hj] at he
  exact (Option.some.inj (Option.some.inj he)).symm

/-- The items of a FEED after `m - n` new events account for exactly these: first the lost ones, then the device's last. -/
theorem accountsFor_feedItems {log : Nat → EventRecord} {n m : Nat} {S : EventSnapshot} (h : IsSnapshotOf log m S) (hnm : n ≤ m)
    (P : EventSnapshot) : AccountsFor log n m (accounted [.ok (.items (feedItems (m - n) P S))]) := by
  rw [accounted_feedItems]
  exact (accountsFor_replicate_none log (by omega)).append (h.accountsFor_records (Nat.min_le_right _ _) (by omega))

/-! ### Exactly-once delivery (R182) -/

theorem lastCount_cons (n m : Nat) (S : EventSnapshot) (snaps : List (Nat × EventSnapshot)) :
    lastCount n ((m, S) :: snaps) = lastCount m snaps := by
  rw [lastCount, lastCount, List.getLast?_cons]
  cases snaps.getLast? <;> rfl

/-- Once initialized at a device's count `n`, FEEDs of its snapshots account for every event after `n`, by induction on the snapshots. -/
theorem execAll_feeds {log : Nat → EventRecord} {n : Nat} {snaps : List (Nat × EventSnapshot)} (h : SnapshotsInOrder log n snaps)
    {s : State} (hi : s.initialized = true) (hn : s.lastCounter = BitVec.ofNat 8 n) :
    ∃ (t : State) (rs : List Response), execAll (snaps.map fun p => .feed p.2) s = .next t ∧ t.responses = s.responses ++ rs ∧
      AccountsFor log n (lastCount n snaps) (accounted rs) := by
  induction snaps generalizing n s with
  | nil => exact ⟨s, [], rfl, (List.append_nil _).symm, .nil log n⟩
  | cons p snaps ih =>
    obtain ⟨m, S⟩ := p
    obtain ⟨hnm, h256, hS, hrest⟩ := h
    obtain ⟨t, ht, hti, htn, hresp⟩ := exec_feed_of_initialized hi S
    rw [hS.toNat_fwdDist hn hnm, Nat.mod_eq_of_lt h256] at hresp
    obtain ⟨u, rs, hu, hurs, hacc⟩ := ih hrest hti (htn.trans hS.1)
    refine ⟨u, _ :: rs, (execAll_cons ht).trans hu, by rw [hurs, hresp, List.append_assoc]; rfl, ?_⟩
    rw [lastCount_cons, ← List.singleton_append, accounted_append]
    exact (accountsFor_feedItems hS hnm _).append hacc

/-- Settles O57: the seeding FEED accounts for nothing and takes the count, and each later FEED accounts for the events since the one
before; a FEED's account has the length of the distance, which is the number of new events mod 256 only. -/
theorem exactlyOnceDelivery : Obligations.ExactlyOnceDelivery := by
  refine ⟨fun log n S snaps s hi hS hsnaps => ?_, fun log n m S s hi hn hnm hmod hS => ?_,
    fun log n m S s hi hn h256 hmod hS => ?_⟩
  · obtain ⟨hcounter, -⟩ := hS
    have hseed := firstFeedSeeds s S hi
    obtain ⟨t, rs, ht, hrs, hlen, hrec⟩ := execAll_feeds hsnaps (s := { s with
      initialized := true, lastCounter := S.counter, history := [S], responses := s.responses ++ [.ok (.items [])] }) rfl hcounter
    refine ⟨t, .ok (.items []) :: rs, (execAll_cons hseed).trans ht, hrs.trans (List.append_assoc _ _ _), ?_, hrec⟩
    exact Nat.eq_sub_of_add_eq' hlen
  · apply feedOfSameCounterDoesNothing s S hi
    rw [← toNat_fwdDist, hS.toNat_fwdDist hn hnm, hmod]
  · obtain ⟨t, ht, -, -, hresp⟩ := exec_feed_of_initialized hi S
    have hdist := hS.toNat_fwdDist hn (show n ≤ m by omega)
    refine ⟨t, _, ht, hresp, ?_, ?_⟩ <;> rw [length_accounted_feedItems, hdist]
    exact (Nat.mod_lt _ (by decide)).trans_le h256

end Sys2Proof.Machine

/-! # Proofs for 60_exceptions.md: status codes, and what a command that errs leaves unchanged -/

namespace Sys2Proof.Machine

/-! ### Status codes (R210) -/

/-- Settles O44: the codes are those of R210's table. -/
theorem statusCodes : Obligations.StatusCodes := ⟨rfl, rfl, rfl, rfl, rfl, rfl⟩

/-! ### Errors are precise (R211) -/

/-- A FEED answers OK in each of its three cases (42_reconciler.md R179). -/
theorem State.feed_responds_ok (s : State) (cap : Nat) (absent S : EventSnapshot) :
    ∃ p, (s.feed cap absent S).responses = s.responses ++ [.ok p] := by
  rcases s.feed_cases cap absent S with ⟨-, hf⟩ | ⟨-, -, hf⟩ | ⟨-, -, hf⟩ <;> exact ⟨_, by rw [hf]; rfl⟩

/-- A command answers OK, or it is a BUILD or a PARSE, which only answers and writes nothing, whatever its status. -/
theorem exec_answers_ok_or_only_answers (i : Instr) (s : State) :
    (∃ t p, exec i s = .next t ∧ t.responses = s.responses ++ [.ok p]) ∨
    (i.opcode ∈ [.buildCrc, .buildSimple, .parseCrc, .parseSimple] ∧ ∃ r, exec i s = .next (s.respond r)) := by
  cases i with
  | crcClr | crcByte | crcCalc | sumClr | sumByte | sumCalc | fwdDist => exact .inl ⟨_, _, rfl, rfl⟩
  | feed S =>
    obtain ⟨p, hp⟩ := s.feed_responds_ok Config.histN (Config.absentSnapshot s.responses.length) S
    exact .inl ⟨_, p, exec_feed S s, hp⟩
  | buildCrc flags d src h x => exact .inr ⟨by simp [Instr.opcode], _, exec_buildCrc flags d src h x s⟩
  | buildSimple flags d src h x => exact .inr ⟨by simp [Instr.opcode], _, exec_buildSimple flags d src h x s⟩
  | parseCrc f => exact .inr ⟨by simp [Instr.opcode], _, exec_parseCommand .crc f s⟩
  | parseSimple f => exact .inr ⟨by simp [Instr.opcode], _, exec_parseCommand .simple f s⟩

theorem step_of_decode_undefinedOp {s : State} {op : Byte} (h : decode (arrived s.inputs) = .undefinedOp op) :
    step s = .next (s.undefinedOp op) := by
  rw [step, h]

/-- Settles O42: a response with another status than OK is not the one of a command that answers OK, so the command only answered. -/
theorem errorsChangeNothing : Obligations.ErrorsChangeNothing := by
  refine ⟨fun i s t r hexec hresp hr => ?_, fun s op hd => step_of_decode_undefinedOp hd⟩
  rcases exec_answers_ok_or_only_answers i s with ⟨t', p, ht, hok⟩ | ⟨hop, r', ht⟩ <;> cases hexec.symm.trans ht
  · have hrp : r = .ok p := by simpa using hresp.symm.trans hok
    subst hrp
    exact absurd rfl hr
  · have hrr : r' = r := by simpa using hresp
    subst hrr
    exact ⟨rfl, hop⟩

end Sys2Proof.Machine

/-! # Proofs for 70_reset_and_hazards.md: the values after reset, and the reset input -/

namespace Sys2Proof.Machine

/-! ### The values after reset (R240) -/

/-- Settles O11: the state at reset and the state that the reset input leaves, element by element. -/
theorem resetValues : Obligations.ResetValues :=
  ⟨⟨State.reset_crcAcc, State.reset_sumAcc, State.reset_initialized, State.reset_lastCounter, State.reset_history⟩,
    fun s rest => ⟨s.applyReset_crcAcc rest, s.applyReset_sumAcc rest, s.applyReset_initialized rest, s.applyReset_lastCounter rest,
      s.applyReset_history rest⟩⟩

/-- The state at reset is what the reset input leaves of it when nothing has arrived. -/
theorem State.applyReset_reset : State.reset.applyReset [] = State.reset := rfl

/-- Settles O47: the reset input gives the reconciler's invariants in any state, and no response has been given. -/
theorem resetIsSafe : Obligations.ResetIsSafe := by
  constructor
  · rw [← State.applyReset_reset]
    exact State.reset.applyReset_inv []
  · rw [State.reset_responses]
    exact List.forall_mem_nil _

/-! ### The reset input (R241) -/

/-- The bytes before a reset are all that has arrived, whatever stands behind the reset. -/
theorem arrived_bytes_append_reset (bs : List Byte) (rest : List Input) : arrived (bs.map .byte ++ .reset :: rest) = bs := by
  rw [arrived_bytes_append, arrived, List.append_nil]

/-- Waiting before a reset ends with that reset, whatever the bytes before it are. -/
theorem State.await_of_inputs_eq_reset {s : State} {bs : List Byte} {rest : List Input}
    (hin : s.inputs = bs.map .byte ++ .reset :: rest) : s.await = .next (s.applyReset rest) := by
  have harr : arrived s.inputs = bs := hin ▸ arrived_bytes_append_reset bs rest
  rcases s.await_cases with ⟨rest', hin', ha⟩ | ⟨hin', -⟩
  · rw [harr] at hin'
    cases List.append_cancel_left (hin.symm.trans hin')
    exact ha
  · rw [harr] at hin'
    exact absurd (hin.symm.trans hin') (by simp)

/-- A reset acts on the step when the bytes before it hold no complete command. -/
theorem step_of_incomplete_reset {s : State} {bs : List Byte} {rest : List Input} (hin : s.inputs = bs.map .byte ++ .reset :: rest)
    (hd : decode bs = .incomplete) : step s = .next (s.applyReset rest) := by
  rw [step, hin, arrived_bytes_append_reset, hd]
  exact State.await_of_inputs_eq_reset hin

/-- A proper beginning of a command, the empty one included, is incomplete. -/
theorem decode_take_encode_of_lt {i : Instr} (hw : i.wellFormed = true) {k : Nat} (hk : k < (encode i).length) :
    decode ((encode i).take k) = .incomplete := by
  rcases k.eq_zero_or_pos with rfl | h0
  · rfl
  · exact decode_take_encode hw h0 hk

/-- Settles O10: the bytes before the reset are a proper beginning of a command, so nothing decodes from them and the reset acts. -/
theorem resetInputDiscardsIncompleteCommand : Obligations.ResetInputDiscardsIncompleteCommand :=
  fun _ _ _ _ hw hk hin => step_of_incomplete_reset hin (decode_take_encode_of_lt hw hk)

end Sys2Proof.Machine

/-! # Proofs for 60_exceptions.md R217: which statuses each command gives -/

namespace Sys2Proof.Machine

/-! ### A status is one of the command's row -/

theorem build_status_mem (op : Byte) (v : Variant) (flags d s : Byte) (m : Message) :
    (build op v flags d s m).status ∈ [Status.ok, .buildError, .illegalOperation] := by
  rcases build_cases op v flags d s m with ⟨-, hb⟩ | ⟨-, -, hb⟩ | ⟨-, -, hb⟩ <;> simp [hb, Response.status]

theorem parse_status_mem (v : Variant) (f : List Byte) :
    (parse v f).status ∈ [Status.ok, .framingTooShort, .framingLengthMismatch, .checksumMismatch] := by
  rw [parse_eq_parseFrame]
  rcases parseFrame_cases f (check v f) with ⟨-, hp⟩ | ⟨-, -, hp⟩ | ⟨-, -, hp⟩
  · simp [hp, Response.status]
  · simp [hp, Response.status]
  · rw [hp]
    rcases check_status v f with hc | hc <;> simp [hc]

theorem exec_status_mem (i : Instr) (s : State) :
    ∃ t r, exec i s = .next t ∧ t.responses = s.responses ++ [r] ∧ r.status ∈ statusesOf i.opcode := by
  cases i with
  | crcClr | crcByte | crcCalc | sumClr | sumByte | sumCalc | fwdDist => exact ⟨_, _, rfl, rfl, List.mem_singleton_self _⟩
  | buildCrc flags d src h x => exact ⟨_, _, exec_buildCrc flags d src h x s, rfl, build_status_mem _ _ _ _ _ _⟩
  | buildSimple flags d src h x => exact ⟨_, _, exec_buildSimple flags d src h x s, rfl, build_status_mem _ _ _ _ _ _⟩
  | parseCrc f => exact ⟨_, _, exec_parseCommand .crc f s, rfl, parse_status_mem .crc f⟩
  | parseSimple f => exact ⟨_, _, exec_parseCommand .simple f s, rfl, parse_status_mem .simple f⟩
  | feed S =>
    obtain ⟨p, hp⟩ := s.feed_responds_ok Config.histN (Config.absentSnapshot s.responses.length) S
    exact ⟨_, .ok p, exec_feed S s, hp, List.mem_singleton_self _⟩

/-- A command gives one response, so any two ways to name it agree. -/
theorem response_unique {i : Instr} {s t t' : State} {r r' : Response} (h : exec i s = .next t) (hr : t.responses = s.responses ++ [r])
    (h' : exec i s = .next t') (hr' : t'.responses = s.responses ++ [r']) : r = r' := by
  cases h.symm.trans h'
  simpa using hr.symm.trans hr'

/-! ### The mask of a BUILD_ERROR (41_framing.md R134) -/

theorem eq_buildMask_of_build_eq_buildError {op : Byte} {v : Variant} {flags d s : Byte} {m : Message} {mask : BitVec 4}
    (h : build op v flags d s m = .buildError mask) :
    mask ≠ 0 ∧ mask = buildMask v (flagDV flags) d (flagSV flags) s (flagHV flags) := by
  rcases build_cases op v flags d s m with ⟨-, hb⟩ | ⟨-, hne, hb⟩ | ⟨-, -, hb⟩
  · cases hb.symm.trans h
  · cases hb.symm.trans h
    exact ⟨hne, rfl⟩
  · cases hb.symm.trans h

/-- The CRC variant makes no source check. -/
theorem buildMask_crc_and (dv : Bool) (d : Byte) (sv : Bool) (src : Byte) (hv : Bool) :
    buildMask .crc dv d sv src hv &&& 0b1010 = 0 := by
  rw [buildMask_crc]
  cases dv <;> cases hv <;> rfl

theorem buildCrc_mask {i : Instr} {s t : State} {mask : BitVec 4} (hi : i.opcode = .buildCrc) (h : exec i s = .next t)
    (hr : t.responses = s.responses ++ [.buildError mask]) : mask ≠ 0 ∧ mask &&& 0b1010 = 0 := by
  cases i with
  | buildCrc flags d src hd x =>
    obtain ⟨hne, rfl⟩ := eq_buildMask_of_build_eq_buildError (response_unique (exec_buildCrc flags d src hd x s) rfl h hr)
    exact ⟨hne, buildMask_crc_and _ _ _ _ _⟩
  | _ => cases hi

theorem buildSimple_mask {i : Instr} {s t : State} {mask : BitVec 4} (hi : i.opcode = .buildSimple) (h : exec i s = .next t)
    (hr : t.responses = s.responses ++ [.buildError mask]) : mask ≠ 0 := by
  cases i with
  | buildSimple flags d src hd x =>
    obtain ⟨hne, -⟩ := eq_buildMask_of_build_eq_buildError (response_unique (exec_buildSimple flags d src hd x s) rfl h hr)
    exact hne
  | _ => cases hi

/-! ### Every status of a row is given -/

/-- In every state the command's response has this status. -/
def GivesStatus (i : Instr) (st : Status) : Prop :=
  ∀ s : State, ∃ t r, exec i s = .next t ∧ t.responses = s.responses ++ [r] ∧ r.status = st

/-- Where OK is the only status of a row, it is given by every command of that row. -/
theorem givesStatus_of_only_ok {i : Instr} {st : Status} (hrow : statusesOf i.opcode = [.ok]) (h : st ∈ statusesOf i.opcode) :
    GivesStatus i st := fun s => by
  obtain ⟨t, r, ht, hr, hmem⟩ := exec_status_mem i s
  rw [hrow, List.mem_singleton] at h hmem
  exact ⟨t, r, ht, hr, hmem.trans h.symm⟩

theorem givesStatus_buildCrc (flags d src h : Byte) (x : List Byte) : GivesStatus (.buildCrc flags d src h x)
    (build Opcode.buildCrc.byte .crc flags d src (makeCrc d h x)).status :=
  fun s => ⟨_, _, exec_buildCrc flags d src h x s, rfl, rfl⟩

theorem givesStatus_buildSimple (flags d src h : Byte) (x : List Byte) : GivesStatus (.buildSimple flags d src h x)
    (build Opcode.buildSimple.byte .simple flags d src (makeSimple d src h x)).status :=
  fun s => ⟨_, _, exec_buildSimple flags d src h x s, rfl, rfl⟩

theorem givesStatus_parseCommand (v : Variant) (f : List Byte) : GivesStatus (parseCommand v f) (parse v f).status :=
  fun s => ⟨_, _, exec_parseCommand v f s, rfl, rfl⟩

/-- All fields set, no field set, and a reserved bit set give the three statuses of a BUILD, in both variants. -/
theorem exists_flags_of_build_status {st : Status} (h : st ∈ [Status.ok, .buildError, .illegalOperation]) :
    ∃ flags : Byte, ∀ (op : Byte) (v : Variant) (d : Byte) (m : Message), (build op v flags d 1 m).status = st := by
  fin_cases h
  · refine ⟨0b111, fun op v d m => ?_⟩
    have hmask : buildMask v (flagDV 0b111) d (flagSV 0b111) 1 (flagHV 0b111) = 0 :=
      buildMask_eq_zero_iff.mpr ⟨by decide, by decide, fun _ => by decide⟩
    rw [build_of_mask_zero (by decide) hmask]
    rfl
  · refine ⟨0, fun op v d m => ?_⟩
    have hmask : buildMask v (flagDV 0) d (flagSV 0) 1 (flagHV 0) ≠ 0 := by
      rw [Ne, buildMask_eq_zero_iff]
      rintro ⟨hdv, -⟩
      exact absurd hdv (by decide)
    rw [build_of_mask_ne_zero (by decide) hmask]
    rfl
  · refine ⟨0b1000, fun op v d m => ?_⟩
    rw [build_of_reservedSet (by decide)]
    rfl

/-- Five zero bytes are a valid frame in both variants. -/
theorem parse_zeros_ok (v : Variant) : ∃ p, parse v [0, 0, 0, 0, 0] = .ok p := by
  cases v with
  | crc => exact ⟨_, parse_crc_of_valid (d := 0) (n := 0) (h := 0) (x := []) (c := 0) rfl (crc16_replicate_zero 3).symm⟩
  | simple => exact ⟨_, parse_simple_of_valid (d := 0) (n := 0) (src := 0) (h := 0) (x := []) rfl⟩

/-- A valid frame, no byte at all, a frame with another length byte, and a frame with another last byte give the four statuses of a PARSE,
in both variants. -/
theorem exists_input_of_parse_status (v : Variant) {st : Status}
    (h : st ∈ [Status.ok, .framingTooShort, .framingLengthMismatch, .checksumMismatch]) :
    ∃ f : List Byte, f.length ≤ Config.byteSeqMax ∧ (parse v f).status = st := by
  obtain ⟨p, hok⟩ := parse_zeros_ok v
  fin_cases h
  · exact ⟨[0, 0, 0, 0, 0], by decide, by rw [hok]; rfl⟩
  · exact ⟨[], by decide, by rw [parse_of_short v (by decide)]; rfl⟩
  · exact ⟨[0, 1, 0, 0, 0], by decide, by rw [parse_of_length_ne v (by decide) (by decide)]; rfl⟩
  · exact ⟨[0, 0, 0, 0, 1], by decide, parse_set_status hok (i := 4) (b := 1) (by decide) (by decide) (by decide)⟩

theorem exists_command_of_status {o : Opcode} {st : Status} (h : st ∈ statusesOf o) :
    ∃ i : Instr, i.wellFormed = true ∧ i.opcode = o ∧ GivesStatus i st := by
  cases o with
  | crcClr => exact ⟨.crcClr, rfl, rfl, givesStatus_of_only_ok rfl h⟩
  | crcByte => exact ⟨.crcByte 0, rfl, rfl, givesStatus_of_only_ok rfl h⟩
  | crcCalc => exact ⟨.crcCalc [], rfl, rfl, givesStatus_of_only_ok rfl h⟩
  | sumClr => exact ⟨.sumClr, rfl, rfl, givesStatus_of_only_ok rfl h⟩
  | sumByte => exact ⟨.sumByte 0, rfl, rfl, givesStatus_of_only_ok rfl h⟩
  | sumCalc => exact ⟨.sumCalc 0 0 0 [], rfl, rfl, givesStatus_of_only_ok rfl h⟩
  | buildCrc =>
    obtain ⟨flags, hflags⟩ := exists_flags_of_build_status h
    exact ⟨.buildCrc flags 0 1 0 [], rfl, rfl, hflags Opcode.buildCrc.byte .crc 0 _ ▸ givesStatus_buildCrc flags 0 1 0 []⟩
  | buildSimple =>
    obtain ⟨flags, hflags⟩ := exists_flags_of_build_status h
    exact ⟨.buildSimple flags 0 1 0 [], rfl, rfl, hflags Opcode.buildSimple.byte .simple 0 _ ▸ givesStatus_buildSimple flags 0 1 0 []⟩
  | parseCrc =>
    obtain ⟨f, hlen, hf⟩ := exists_input_of_parse_status .crc h
    exact ⟨.parseCrc f, decide_eq_true hlen, rfl, hf ▸ givesStatus_parseCommand .crc f⟩
  | parseSimple =>
    obtain ⟨f, hlen, hf⟩ := exists_input_of_parse_status .simple h
    exact ⟨.parseSimple f, decide_eq_true hlen, rfl, hf ▸ givesStatus_parseCommand .simple f⟩
  | feed => exact ⟨.feed default, rfl, rfl, givesStatus_of_only_ok rfl h⟩
  | fwdDist => exact ⟨.fwdDist 0 0, rfl, rfl, givesStatus_of_only_ok rfl h⟩

/-- Settles O43: a command's one response has a status of its row, a command is known for each status of a row, and an undefined op byte is
answered with ILLEGAL_OPERATION. -/
theorem statusesOfEachCommand : Obligations.StatusesOfEachCommand := by
  refine ⟨fun i s t r h hr => ⟨?_, ?_, ?_⟩, fun o st h => exists_command_of_status h, fun s op hd => ?_⟩
  · obtain ⟨t', r', h', hr', hmem⟩ := exec_status_mem i s
    exact response_unique h hr h' hr' ▸ hmem
  · rintro hi mask rfl
    exact buildCrc_mask hi h hr
  · rintro hi mask rfl
    exact buildSimple_mask hi h hr
  · refine ⟨_, step_of_decode_undefinedOp hd, ?_⟩
    rw [State.undefinedOp_responses, List.getLast?_concat]
    rfl

end Sys2Proof.Machine

/-! # Proofs for 20_memory.md R58: which elements each command writes and reads -/

namespace Sys2Proof.Machine

/-! ### The commands that write, and the commands that only answer -/

/-- A command that writes no element only answers, and its answer is the same in every state. -/
theorem exec_only_answers {i : Instr} (hi : i.opcode ∉ [.crcClr, .crcByte, .sumClr, .sumByte, .feed]) :
    ∃ r, ∀ s, exec i s = .next (s.respond r) := by
  cases i with
  | crcClr | crcByte | sumClr | sumByte | feed => exact absurd (by simp [Instr.opcode]) hi
  | crcCalc p => exact ⟨_, exec_crcCalc p⟩
  | sumCalc d src h x => exact ⟨_, exec_sumCalc d src h x⟩
  | buildCrc flags d src h x => exact ⟨_, exec_buildCrc flags d src h x⟩
  | buildSimple flags d src h x => exact ⟨_, exec_buildSimple flags d src h x⟩
  | parseCrc f => exact ⟨_, exec_parseCommand .crc f⟩
  | parseSimple f => exact ⟨_, exec_parseCommand .simple f⟩
  | fwdDist a b => exact ⟨_, exec_fwdDist a b⟩

/-- The rows of R58's table: the five commands that write, and the others. -/
theorem writer_cases (i : Instr) :
    i = .crcClr ∨ (∃ b, i = .crcByte b) ∨ i = .sumClr ∨ (∃ b, i = .sumByte b) ∨ (∃ S, i = .feed S) ∨
      i.opcode ∉ [.crcClr, .crcByte, .sumClr, .sumByte, .feed] := by
  cases i <;> simp [Instr.opcode]

theorem State.feed_crcAcc (s : State) (cap : Nat) (absent S : EventSnapshot) : (s.feed cap absent S).crcAcc = s.crcAcc := by
  rcases s.feed_cases cap absent S with ⟨-, hf⟩ | ⟨-, -, hf⟩ | ⟨-, -, hf⟩ <;> rw [hf] <;> rfl

theorem State.feed_sumAcc (s : State) (cap : Nat) (absent S : EventSnapshot) : (s.feed cap absent S).sumAcc = s.sumAcc := by
  rcases s.feed_cases cap absent S with ⟨-, hf⟩ | ⟨-, -, hf⟩ | ⟨-, -, hf⟩ <;> rw [hf] <;> rfl

theorem exec_keeps_crcAcc {i : Instr} {s t : State} (h : exec i s = .next t) (hclr : i ≠ .crcClr) (hbyte : ∀ b, i ≠ .crcByte b) :
    t.crcAcc = s.crcAcc := by
  rcases writer_cases i with rfl | ⟨b, rfl⟩ | rfl | ⟨b, rfl⟩ | ⟨S, rfl⟩ | hi
  · exact absurd rfl hclr
  · exact absurd rfl (hbyte b)
  · cases h
    rfl
  · cases h
    rfl
  · cases h
    exact s.feed_crcAcc _ _ S
  · obtain ⟨r, hr⟩ := exec_only_answers hi
    cases h.symm.trans (hr s)
    rfl

theorem exec_keeps_sumAcc {i : Instr} {s t : State} (h : exec i s = .next t) (hclr : i ≠ .sumClr) (hbyte : ∀ b, i ≠ .sumByte b) :
    t.sumAcc = s.sumAcc := by
  rcases writer_cases i with rfl | ⟨b, rfl⟩ | rfl | ⟨b, rfl⟩ | ⟨S, rfl⟩ | hi
  · cases h
    rfl
  · cases h
    rfl
  · exact absurd rfl hclr
  · exact absurd rfl (hbyte b)
  · cases h
    exact s.feed_sumAcc _ _ S
  · obtain ⟨r, hr⟩ := exec_only_answers hi
    cases h.symm.trans (hr s)
    rfl

/-! ### What FEED reads -/

/-- By R27 an initialized reconciler has a newest entry, so no free value is read for it. -/
theorem State.inv.exists_newest {s : State} (hinv : s.inv) (hi : s.initialized = true) : ∃ P, s.history.getLast? = some P := by
  obtain ⟨-, hlast, -⟩ := hinv
  obtain ⟨P, hP, -⟩ := Option.map_eq_some_iff.mp (hlast hi)
  exact ⟨P, hP⟩

/-- Two states with the same reconciler, which meets R27, answer a FEED alike and have the same reconciler after it. -/
theorem State.feed_agrees {s s' : State} (hinv : s.inv)
    (hrec : s.initialized = s'.initialized ∧ s.lastCounter = s'.lastCounter ∧ s.history = s'.history)
    (cap : Nat) (absent absent' S : EventSnapshot) :
    (∃ r, (s.feed cap absent S).responses = s.responses ++ [r] ∧ (s'.feed cap absent' S).responses = s'.responses ++ [r]) ∧
    (s.feed cap absent S).initialized = (s'.feed cap absent' S).initialized ∧
    (s.feed cap absent S).lastCounter = (s'.feed cap absent' S).lastCounter ∧
    (s.feed cap absent S).history = (s'.feed cap absent' S).history := by
  obtain ⟨hinit, hlast, hhist⟩ := hrec
  rcases s.feed_cases cap absent S with ⟨hi, hf⟩ | ⟨hi, hc, hf⟩ | ⟨hi, hc, hf⟩
  · rw [hf, State.feed_of_uninitialized (hinit ▸ hi)]
    exact ⟨⟨_, rfl, rfl⟩, rfl, rfl, rfl⟩
  · rw [hf, State.feed_of_same_counter (hinit ▸ hi) (hlast ▸ hc)]
    exact ⟨⟨_, rfl, rfl⟩, hinit, hlast, hhist⟩
  · obtain ⟨P, hP⟩ := hinv.exists_newest hi
    rw [hf, State.feed_of_new_counter (hinit ▸ hi) (hlast ▸ hc), newest_of_getLast? hP, newest_of_getLast? (hhist ▸ hP), hlast, hhist]
    exact ⟨⟨_, rfl, rfl⟩, rfl, rfl, rfl⟩

/-- Settles O53, by the rows of R58's table: each of the five writing commands by its equation, and the others because they only answer,
the same in every state. -/
theorem commandsReadAndWriteOnlyTheirElements : Obligations.CommandsReadAndWriteOnlyTheirElements := by
  refine ⟨fun i s t h => ⟨exec_keeps_crcAcc h, exec_keeps_sumAcc h, fun hi => exec_keeps_reconciler hi h⟩, ?_, ?_,
    fun s op => ⟨⟨rfl, rfl, rfl, rfl, rfl⟩, s.undefinedOp_responses op⟩⟩
  · intro i s s' t t' hinv _ h h' hcrc hsum hrec
    rcases writer_cases i with rfl | ⟨b, rfl⟩ | rfl | ⟨b, rfl⟩ | ⟨S, rfl⟩ | hi
    · cases h
      cases h'
      exact ⟨⟨_, rfl, rfl⟩, fun _ => rfl, by simp, by simp⟩
    · have hread := hcrc ⟨b, rfl⟩
      rw [exec_crcByte] at h h'
      cases h
      cases h'
      rw [hread]
      exact ⟨⟨_, rfl, rfl⟩, fun _ => rfl, by simp, by simp⟩
    · cases h
      cases h'
      exact ⟨⟨_, rfl, rfl⟩, by simp, fun _ => rfl, by simp⟩
    · have hread := hsum ⟨b, rfl⟩
      rw [exec_sumByte] at h h'
      cases h
      cases h'
      rw [hread]
      exact ⟨⟨_, rfl, rfl⟩, by simp, fun _ => rfl, by simp⟩
    · rw [exec_feed] at h h'
      cases h
      cases h'
      obtain ⟨hresp, hafter⟩ := State.feed_agrees hinv (hrec ⟨S, rfl⟩) Config.histN
        (Config.absentSnapshot s.responses.length) (Config.absentSnapshot s'.responses.length) S
      exact ⟨hresp, by simp, by simp, fun _ => hafter⟩
    · obtain ⟨r, hr⟩ := exec_only_answers hi
      cases h.symm.trans (hr s)
      cases h'.symm.trans (hr s')
      refine ⟨⟨r, rfl, rfl⟩, ?_, ?_, ?_⟩
      · rintro (rfl | ⟨b, rfl⟩) <;> exact absurd (by simp [Instr.opcode]) hi
      · rintro (rfl | ⟨b, rfl⟩) <;> exact absurd (by simp [Instr.opcode]) hi
      · rintro ⟨S, rfl⟩
        exact absurd (by simp [Instr.opcode]) hi
  · intro i s t u h h' hi
    obtain ⟨r, hr⟩ := exec_only_answers hi
    cases h.symm.trans (hr s)
    cases h'.symm.trans (hr (s.respond r))
    exact ⟨r, rfl, rfl⟩

end Sys2Proof.Machine
